-- ==== Sys2Proof/Word.lean ====
section
/-! DEFINITION. The plain data of the block: bytes and byte strings (00_scope.md R9, R10). -/

namespace Sys2Proof

/-- One byte of the store or of a serial (00_scope.md R9). -/
abbrev Byte := BitVec 8

/-- A byte string; two are equal when they have the same length and the same byte everywhere (00_scope.md R10). -/
abbrev Bytes := List Byte

end Sys2Proof
end

