-- ==== Sys2Proof/Config.lean ====
section
/-! DEFINITION. The constants of 00_scope.md R7 and R8, and the two electrical parameters that no rule reads.
STORE_MAX_BYTES, the one open parameter that a rule does read, is a field of State (log entry 5). -/

namespace Sys2Proof.Config

/-- Capacity of the capture buffer in bits (00_scope.md R7). -/
@[simp] abbrev capacity : Nat := 255
/-- Number of leading bits that must be 0 (00_scope.md R7). -/
@[simp] abbrev lead : Nat := 25
/-- Bytes of a canonical serial (00_scope.md R7). -/
@[simp] abbrev serialLen : Nat := 9
/-- Bytes of a stored record (00_scope.md R7). -/
@[simp] abbrev recordLen : Nat := 12
/-- The longest serial operand the command port can carry (00_scope.md R8, D21). -/
@[simp] abbrev serialMax : Nat := 15
/-- The largest capacity of the medium, 12 × 65535 bytes (00_scope.md R8, D22). -/
@[simp] abbrev storeLimit : Nat := 786420

/-- FILLER, the character of a blank record: 'Z' (00_scope.md R8, D19). -/
@[simp] abbrev filler : Byte := 0x5A#8
/-- SLOT_APPEND, the slot value that means append (00_scope.md R8, D20). -/
@[simp] abbrev slotAppend : BitVec 16 := 0xFFFF#16
/-- NODATA, the answer of BITAT at or above len (00_scope.md R8, D9). -/
@[simp] abbrev noData : BitVec 2 := 2#2

/-- The characters of a record, in ASCII (00_scope.md R9, 93_implementation_defined.md G1). -/
@[simp] abbrev comma : Byte := 0x2C#8
@[simp] abbrev newline : Byte := 0x0A#8
@[simp] abbrev space : Byte := 0x20#8
@[simp] abbrev hyphen : Byte := 0x2D#8
@[simp] abbrev digit0 : Byte := 0x30#8
@[simp] abbrev digit1 : Byte := 0x31#8

/-- An electrical edge. -/
inductive Edge where
  | rising
  | falling
deriving DecidableEq, Repr, Inhabited

/-- STROBE_EDGE, which edge is the event (00_scope.md R8, D2): open, and no rule reads it (log entry 18). -/
opaque strobeEdge : Edge
/-- PRESENT_ACTIVE_LEVEL, which level means a card is present (00_scope.md R8, D2): open, and no rule reads it
(log entry 18). -/
opaque presentActiveLevel : Bool

end Sys2Proof.Config
end

