-- ==== Sys2Proof/Syntax.lean ====
section
/-! DEFINITION. The instructions, one constructor per row of spec/opcode_table.json, and the words and accesses that
the outside presents on the two ports. -/

namespace Sys2Proof

/-- The thirteen rows of the opcode table (30_encoding.md R74). -/
inductive Instr where
  /-- APPEND, the event `1d`; `level` is the raw line level `d` (R70, R100). -/
  | append (level : Bool)
  /-- CLEAR, 0x1000 (R103). -/
  | clear
  /-- ISFULL, 0x1100 (R104). -/
  | isfull
  /-- BITAT i, 0x1200 | i: a position of the capture buffer (R105). -/
  | bitat (i : Nat)
  /-- DECODE, 0x1300 (R141). -/
  | decode
  /-- DECODES cap, 0x1400 | cap: the caller's capacity in bytes (R142). -/
  | decodes (cap : Nat)
  /-- FORMAT, 0x1500 (R143). -/
  | format
  /-- LOOKUP, 0x2000 (R167). -/
  | lookup
  /-- GET, 0x2100 (R170). -/
  | get
  /-- PUT, 0x2200 (R174). -/
  | put
  /-- INSERT, 0x2300 (R180). -/
  | insert
  /-- ENUM, 0x2400 (R184). -/
  | enum
  /-- DELETE, 0x2500 (R187). -/
  | delete
deriving DecidableEq, Repr

/-- A word on one of the two ports: a 2-bit event word (30_encoding.md R70) or a 16-bit command word (R72). -/
inductive PortWord where
  | event (ev : BitVec 2)
  | command (w : BitVec 16)
deriving DecidableEq, Repr

/-- The ten registers of the command port (10_state.md R30). -/
inductive Reg where
  | cmd | bval | wstat | fac | card | ser | slot | en | sstat | cerr
deriving DecidableEq, Repr

/-- A value on the command port's data lines: a number, or the byte string of SER (10_state.md R30, R36). -/
inductive PortValue where
  | word (n : Nat)
  | text (bs : Bytes)
deriving DecidableEq, Repr

/-- The condition of the storage medium as a store command finds it (10_state.md R25). -/
inductive Medium where
  | ok
  | absent
  | unopenable
deriving DecidableEq, Repr

/-- One thing the outside does to the block; each is one atomic step (20_memory.md R60, 70_reset_and_hazards.md R240). -/
inductive Input where
  /-- The producer presents an event word (R70). -/
  | event (ev : BitVec 2)
  /-- The host writes a register; a write of CMD executes a command (R30, R31). -/
  | write (r : Reg) (v : PortValue)
  /-- The host reads a register (R30). -/
  | read (r : Reg)
  /-- The platform changes the condition of the medium (R25). -/
  | medium (m : Medium)
  /-- The reset input (R240). -/
  | reset
deriving DecidableEq, Repr

end Sys2Proof
end

