-- ==== Sys2Proof/WellFormed.lean ====
section
/-! DEFINITION. What an instruction must meet to have an encoding, and what a host access must meet for the command
port to carry it. -/

namespace Sys2Proof

/-- The operand byte of a format I command is an unsigned 8-bit number (30_encoding.md R72, R73). -/
def Instr.wf : Instr → Bool
  | .bitat i => decide (i < 256)
  | .decodes cap => decide (cap < 256)
  | .append _ | .clear | .isfull | .decode | .format => true
  | .lookup | .get | .put | .insert | .enum | .delete => true

/-- A host write that the port carries: a writable register and a value of its width (10_state.md R30, R34 to R38;
93_implementation_defined.md U16, U17). -/
def Reg.accepts : Reg → PortValue → Bool
  | .cmd, .word n => decide (n < 2 ^ 16)
  | .fac, .word n => decide (n < 2 ^ 8)
  | .card, .word n => decide (n < 2 ^ 16)
  | .ser, .text bs => decide (bs.length ≤ Config.serialMax)
  | .slot, .word n => decide (n < 2 ^ 16)
  | .en, .word n => decide (n < 2)
  | _, _ => false

/-- A register the host may read: every one but CMD (10_state.md R30). -/
def Reg.readable : Reg → Bool
  | .cmd => false
  | .bval | .wstat | .fac | .card | .ser | .slot | .en | .sstat | .cerr => true

/-- An input the ports can carry. -/
def Input.wf : Input → Bool
  | .write r v => r.accepts v
  | .read r => r.readable
  | .event _ | .medium _ | .reset => true

end Sys2Proof
end

