-- ==== Sys2Proof/Decode.lean ====
section
/-! DEFINITION. Decoding a port's word into an instruction, total and rejecting by name (30_encoding.md R71, R75), and
the encoder written from the same tables; and the numbers of the registers (10_state.md R30). -/

namespace Sys2Proof

/-- Why a port's word is no instruction. -/
inductive Reject where
  /-- An event word with `present` = 0: no operation, and no error (30_encoding.md R71). -/
  | notPresent
  /-- A command word whose opcode is none of the twelve (30_encoding.md R75, R77). -/
  | illegalOpcode
  /-- A format N command word whose operand byte is not 0 (30_encoding.md R75, R77). -/
  | operandByteNotZero
deriving DecidableEq, Repr

/-- `CMD[15:8]` (30_encoding.md R72). -/
def opcode (w : BitVec 16) : BitVec 8 := w.extractLsb' 8 8

/-- `CMD[7:0]` (30_encoding.md R72). -/
def imm8 (w : BitVec 16) : BitVec 8 := w.extractLsb' 0 8

/-- Format N: the operand byte must be 0x00 (30_encoding.md R72, R75). -/
def formatN (w : BitVec 16) (i : Instr) : Except Reject Instr :=
  if imm8 w = 0#8 then .ok i else .error .operandByteNotZero

/-- Reading a command word (30_encoding.md R74, R75). -/
def decodeCommand (w : BitVec 16) : Except Reject Instr :=
  match (opcode w).toNat with
  | 0x10 => formatN w .clear
  | 0x11 => formatN w .isfull
  | 0x12 => .ok (.bitat (imm8 w).toNat)
  | 0x13 => formatN w .decode
  | 0x14 => .ok (.decodes (imm8 w).toNat)
  | 0x15 => formatN w .format
  | 0x20 => formatN w .lookup
  | 0x21 => formatN w .get
  | 0x22 => formatN w .put
  | 0x23 => formatN w .insert
  | 0x24 => formatN w .enum
  | 0x25 => formatN w .delete
  | _ => .error .illegalOpcode

/-- Reading an event word: `present` is bit 1, `level` is bit 0 (30_encoding.md R70, R71). -/
def decodeEvent (ev : BitVec 2) : Except Reject Instr :=
  if ev.getLsbD 1 then .ok (.append (ev.getLsbD 0)) else .error .notPresent

/-- The decoder, total on every word of either port. -/
def decode : PortWord → Except Reject Instr
  | .event ev => decodeEvent ev
  | .command w => decodeCommand w

/-- A command word from its two fields (30_encoding.md R72). -/
def commandWord (op imm : BitVec 8) : BitVec 16 := op ++ imm

/-- The word of an instruction (30_encoding.md R70, R72, R74). An operand outside its byte is not well formed
(Instr.wf) and has no word of its own. -/
def encode : Instr → PortWord
  | .append level => .event (1#1 ++ BitVec.ofBool level)
  | .clear => .command (commandWord 0x10#8 0#8)
  | .isfull => .command (commandWord 0x11#8 0#8)
  | .bitat i => .command (commandWord 0x12#8 (BitVec.ofNat 8 i))
  | .decode => .command (commandWord 0x13#8 0#8)
  | .decodes cap => .command (commandWord 0x14#8 (BitVec.ofNat 8 cap))
  | .format => .command (commandWord 0x15#8 0#8)
  | .lookup => .command (commandWord 0x20#8 0#8)
  | .get => .command (commandWord 0x21#8 0#8)
  | .put => .command (commandWord 0x22#8 0#8)
  | .insert => .command (commandWord 0x23#8 0#8)
  | .enum => .command (commandWord 0x24#8 0#8)
  | .delete => .command (commandWord 0x25#8 0#8)

/-- A row of the machine-readable table (30_encoding.md R86): the bits of a word that are fixed, and their values. -/
structure Row where
  width : Nat
  mask : Nat
  pattern : Nat
deriving DecidableEq, Repr

/-- The row of spec/opcode_table.json an instruction belongs to (30_encoding.md R75, R86). -/
def Instr.row : Instr → Row
  | .append _ => ⟨2, 0x2, 0x2⟩
  | .clear => ⟨16, 0xFFFF, 0x1000⟩
  | .isfull => ⟨16, 0xFFFF, 0x1100⟩
  | .bitat _ => ⟨16, 0xFF00, 0x1200⟩
  | .decode => ⟨16, 0xFFFF, 0x1300⟩
  | .decodes _ => ⟨16, 0xFF00, 0x1400⟩
  | .format => ⟨16, 0xFFFF, 0x1500⟩
  | .lookup => ⟨16, 0xFFFF, 0x2000⟩
  | .get => ⟨16, 0xFFFF, 0x2100⟩
  | .put => ⟨16, 0xFFFF, 0x2200⟩
  | .insert => ⟨16, 0xFFFF, 0x2300⟩
  | .enum => ⟨16, 0xFFFF, 0x2400⟩
  | .delete => ⟨16, 0xFFFF, 0x2500⟩

/-- A port's word as a width and a number. -/
def PortWord.width : PortWord → Nat
  | .event _ => 2
  | .command _ => 16

def PortWord.bits : PortWord → Nat
  | .event ev => ev.toNat
  | .command w => w.toNat

/-- The port's word that a row's number stands for: one byte holds an event word, two bytes a command word
(log entry 17). -/
def tableWord (nbits w : Nat) : Option PortWord :=
  if nbits ≤ 8 then
    if w < 4 then some (.event (BitVec.ofNat 2 w)) else none
  else if nbits = 16 then
    if w < 2 ^ 16 then some (.command (BitVec.ofNat 16 w)) else none
  else none

/-- The number of a register on the command port (10_state.md R30, column no.). -/
def Reg.number : Reg → Nat
  | .cmd => 0
  | .bval => 1
  | .wstat => 2
  | .fac => 3
  | .card => 4
  | .ser => 5
  | .slot => 6
  | .en => 7
  | .sstat => 8
  | .cerr => 9

/-- The register that a number names; the register space ends at 9 (10_state.md R30; 20_memory.md R50). -/
def Reg.ofNumber : Nat → Option Reg
  | 0 => some .cmd
  | 1 => some .bval
  | 2 => some .wstat
  | 3 => some .fac
  | 4 => some .card
  | 5 => some .ser
  | 6 => some .slot
  | 7 => some .en
  | 8 => some .sstat
  | 9 => some .cerr
  | _ => none

/-- The instruction the decoder reads from a row's number (none where it refuses). -/
def decodeTableWord (nbits w : Nat) : Option Instr :=
  match tableWord nbits w with
  | some p =>
    match decode p with
    | .ok i => some i
    | .error _ => none
  | none => none

end Sys2Proof
end

