-- ==== Sys2Proof/Machine/State.lean ====
section
/-! DEFINITION. The state of the block as plain data (10_state.md), the reasons a step may stop, and the state after
reset (10_state.md R43). -/

namespace Sys2Proof.Machine

/-- Decoder result codes, the values of WSTAT (30_encoding.md R80; an enumeration as D8 asks, log entry 13). -/
inductive WCode where
  | success
  | leadingZeros
  | parityFailure
  | invalidStart
  | lrcParityFailure
  | trailingZeros
  | padFailure
  | prematureEnd
  | bufferTooSmall
deriving DecidableEq, Repr

/-- Store result codes, the values of SSTAT (30_encoding.md R81; log entry 13). -/
inductive SCode where
  | success
  | openFailure
  | recordTooShort
  | recordTooLong
  | invalidRecord
  | recordNotFound
  | eof
  | doesNotExist
  | alreadyExists
deriving DecidableEq, Repr

/-- One record of the enumeration stream (10_state.md R29). -/
structure Visit where
  serial  : Bytes
  slot    : Nat
  enabled : Bool
deriving DecidableEq, Repr

/-- The bytes of the store: offsets strictly rising, and no entry equal to what an unlisted offset reads as
(Memory.wf in Machine/Ops.lean). -/
abbrev Memory := List Host.Cell

/-- The CardStore file: its bytes, and its length `size` (10_state.md R24). -/
structure Store where
  mem  : Memory
  size : Nat
deriving DecidableEq, Repr

/-- The block stops with a fault: it never does. The block raises no exception (60_exceptions.md R200), and its one
command fault, CERR, is a next state (30_encoding.md R77; log entry 4). -/
inductive Fault where
deriving DecidableEq, Repr

/-- The situations the spec itself refuses: the step has no outcome (00_scope.md R13 `refuse`). All are safe. -/
inductive Refusal where
  /-- An instruction without a meaning; raised by exec's arms only. Safe. -/
  | notModelled (mnemonic : String)
  /-- A store write that would exceed STORE_MAX_BYTES (20_memory.md R57, 93_implementation_defined.md U9); raised by
  PUT, INSERT and DELETE. Safe: nothing is claimed of such a run. -/
  | storeFull
  /-- A host write to a read-only register (10_state.md R30, U16); raised by a register write. Safe. -/
  | readOnlyRegister
  /-- A host read of CMD (10_state.md R30, U16); raised by a register read. Safe. -/
  | writeOnlyRegister
  /-- A value the port cannot carry to that register (U17); raised by a register write. Safe. -/
  | portCannotCarry
deriving DecidableEq, Repr

/-- The block, its parameters of launch, its outputs so far and its inputs to come. -/
structure State where
  /-- The capture buffer; bit 1 is `true` (10_state.md R20). -/
  buf      : Vector Bool Config.capacity
  /-- The number of valid bits (10_state.md R21). -/
  len      : BitVec 8
  /-- Register 1 (10_state.md R32). -/
  bval     : BitVec 2
  /-- Register 2 (10_state.md R33). -/
  wstat    : WCode
  /-- Register 3 (10_state.md R34). -/
  fac      : BitVec 8
  /-- Register 4 (10_state.md R35). -/
  card     : BitVec 16
  /-- Register 5 (10_state.md R36). -/
  ser      : Bytes
  /-- Register 6 (10_state.md R37). -/
  slot     : BitVec 16
  /-- Register 7 (10_state.md R38). -/
  en       : Bool
  /-- Register 8 (10_state.md R39). -/
  sstat    : SCode
  /-- Register 9, the sticky command-error flag (10_state.md R40). -/
  cerr     : Bool
  /-- The store and its size (10_state.md R24). -/
  store    : Store
  /-- STORE_MAX_BYTES, a launch parameter that no step writes (00_scope.md R8; log entry 5). -/
  storeMax : Fin (Config.storeLimit + 1)
  /-- The condition of the medium, an input line (10_state.md R25; log entry 7). -/
  medium   : Medium
  /-- Output: the enumeration stream so far (10_state.md R29; log entry 10). -/
  visits   : List Visit
  /-- Output: the values of `app_ok` so far, one per APPEND (40_bitcapture.md R100; log entry 10). -/
  appOks   : List Bool
  /-- Output: what the host's register reads returned so far (10_state.md R30; log entry 10). -/
  reads    : List (Reg × PortValue)
  /-- Input: what the agents do next, in the order it happens (20_memory.md R60; log entry 1). -/
  inputs   : List Input
deriving DecidableEq, Repr

/-- The machine right after reset (10_state.md R43), at a launch with an empty store (log entries 1, 5, 7, 8, 10). -/
def State.reset : State where
  buf := Vector.replicate Config.capacity false
  len := 0#8
  bval := 0#2
  wstat := .success
  fac := 0#8
  card := 0#16
  ser := []
  slot := 0#16
  en := false
  sstat := .success
  cerr := false
  store := ⟨[], 0⟩
  storeMax := ⟨Config.storeLimit, Nat.lt_succ_self _⟩
  medium := .ok
  visits := []
  appOks := []
  reads := []
  inputs := []

end Sys2Proof.Machine
end

