-- ==== Sys2Proof/Machine/Operands.lean ====
section
/-! DEFINITION. Operand assembly and the encodings of the source: the logical bit, the slot's byte offset, the serial
string and the record line (30_encoding.md R73, R82 to R84; 40_bitcapture.md R101). -/

namespace Sys2Proof.Machine

/-- `bit = 1 - level`: the one inversion of the block (40_bitcapture.md R101; 90_conflicts.md C1). -/
def logicalBit (level : Bool) : Bool := !level

/-- The byte offset of a slot, without wrap-around (30_encoding.md R73). -/
def slotOffset (slot : BitVec 16) : Nat := Config.recordLen * slot.toNat

/-- A decimal digit as a character (30_encoding.md R84). -/
def digitChar (n : Nat) : Byte := Config.digit0 + BitVec.ofNat 8 (n % 10)

/-- `Format(f, c)`, the canonical serial `"FFF-CCCCC"` (30_encoding.md R84). -/
def formatSerial (f : BitVec 8) (c : BitVec 16) : Bytes :=
  [digitChar (f.toNat / 100), digitChar (f.toNat / 10), digitChar f.toNat,
   Config.hyphen,
   digitChar (c.toNat / 10000), digitChar (c.toNat / 1000), digitChar (c.toNat / 100),
   digitChar (c.toNat / 10), digitChar c.toNat]

/-- The flag character of a record (30_encoding.md R82). -/
def flagChar (enabled : Bool) : Byte := if enabled then Config.digit1 else Config.digit0

/-- `Encode(serial, enabled)`, the record line (30_encoding.md R82). -/
def encodeRecord (serial : Bytes) (enabled : Bool) : Bytes :=
  serial ++ [Config.comma, flagChar enabled, Config.newline]

/-- BLANK, the serial of a tombstone (30_encoding.md R83). -/
def blankSerial : Bytes := List.replicate Config.serialLen Config.filler

end Sys2Proof.Machine
end

