-- ==== Sys2Proof/Machine/Ops.lean ====
section
/-! DEFINITION. The shared operations over the capture buffer, the store's bytes and the registers, the command fault
and the effect of reset. The block has no exception entry and no return from one (60_exceptions.md R200, R211): the
command fault is what takes their place. -/

namespace Sys2Proof.Machine

/-! ### The capture buffer -/

/-- `buf[i]`; every rule that reads a cell has `i < len` (10_state.md R21, R42). -/
def cellAt (s : State) (i : Nat) : Bool := s.buf[i]?.getD false

/-- Writing one cell (10_state.md R20). -/
def setCell (s : State) (i : Nat) (b : Bool) : State := { s with buf := s.buf.setIfInBounds i b }

/-- The bits of a full capture in time order, position 0 first (00_scope.md R12). -/
def capture (s : State) : List Bool := s.buf.toList

/-! ### The bytes of the store -/

/-- What an unlisted offset reads as (log entry 9). No offset below `size` is ever unwritten (20_memory.md R57). -/
def Memory.unlisted : Byte := 0x00#8

/-- The canonical form: offsets strictly rising, and no entry equal to an unlisted one. -/
def Memory.wf : Memory → Bool
  | [] => true
  | [(_, b)] => decide (b ≠ Memory.unlisted)
  | (a, b) :: (a', b') :: m => decide (b ≠ Memory.unlisted) && decide (a < a') && Memory.wf ((a', b') :: m)

/-- Every listed offset is below `n`. -/
def Memory.below (n : Nat) (m : Memory) : Bool := m.all fun c => decide (c.1 < n)

/-- One byte. -/
def Memory.readByte : Memory → Nat → Byte
  | [], _ => Memory.unlisted
  | (k, b) :: m, a => if k = a then b else Memory.readByte m a

/-- An entry in front of a list, unless it equals an unlisted one. -/
def Memory.consByte (a : Nat) (v : Byte) (m : Memory) : Memory :=
  if v = Memory.unlisted then m else (a, v) :: m

/-- Writing one byte, keeping the canonical form. -/
def Memory.writeByte : Memory → Nat → Byte → Memory
  | [], a, v => Memory.consByte a v []
  | (k, b) :: m, a, v =>
    if a < k then Memory.consByte a v ((k, b) :: m)
    else if a = k then Memory.consByte a v m
    else (k, b) :: Memory.writeByte m a v

/-- `MemRead(off, n)` (20_memory.md R56). -/
def Memory.readBytes (m : Memory) : Nat → Nat → Bytes
  | _, 0 => []
  | off, n + 1 => m.readByte off :: m.readBytes (off + 1) n

/-- The bytes of `MemWrite(off, n, v)`, in ascending offset (20_memory.md R51, R57). -/
def Memory.writeBytes (m : Memory) (off : Nat) : Bytes → Memory
  | [] => m
  | b :: bs => (m.writeByte off b).writeBytes (off + 1) bs

/-- `MemWrite(off, n, v)`: the store never shrinks (20_memory.md R57). -/
def Store.write (st : Store) (off : Nat) (v : Bytes) : Store :=
  ⟨st.mem.writeBytes off v, max st.size (off + v.length)⟩

/-- The store's content, byte 0 to byte size - 1 (10_state.md R24). -/
def Store.bytes (st : Store) : Bytes := st.mem.readBytes 0 st.size

/-- A store that holds a given byte string: the launch parameter of 10_state.md R43 (D36). -/
def Store.ofBytes (bs : Bytes) : Store := ⟨Memory.writeBytes [] 0 bs, bs.length⟩

/-! ### Registers -/

/-- `return CODE` of a decoder command (60_exceptions.md R200). -/
def State.returnW (s : State) (c : WCode) : State := { s with wstat := c }

/-- `return CODE` of a store command (60_exceptions.md R200). -/
def State.returnS (s : State) (c : SCode) : State := { s with sstat := c }

/-- The decoded pair into FAC, CARD (10_state.md R34, R35). -/
def State.setPair (s : State) (f : BitVec 8) (c : BitVec 16) : State := { s with fac := f, card := c }

/-- A record's serial and flag into SER, EN (10_state.md R36, R38). -/
def State.setRecord (s : State) (serial : Bytes) (enabled : Bool) : State := { s with ser := serial, en := enabled }

/-- A new store content (10_state.md R24). -/
def State.setStore (s : State) (st : Store) : State := { s with store := st }

/-- `emit Visit`, in order (10_state.md R29). -/
def State.emitVisits (s : State) (vs : List Visit) : State := { s with visits := s.visits ++ vs }

/-- Driving `app_ok` (40_bitcapture.md R100). -/
def State.driveAppOk (s : State) (ok : Bool) : State := { s with appOks := s.appOks ++ [ok] }

/-- `fault CERR`: the sticky bit and nothing else (30_encoding.md R77; log entry 4). -/
def State.faultCerr (s : State) : State := { s with cerr := true }

/-- The effect of the reset input: every register and `len`; no cell of buf, not the store, no input and no output
already given (10_state.md R43, R20; 70_reset_and_hazards.md R241; log entry 10). -/
def State.resetBlock (s : State) : State :=
  { s with
    len := 0#8, bval := 0#2, wstat := .success, fac := 0#8, card := 0#16, ser := [], slot := 0#16,
    en := false, sstat := .success, cerr := false }

end Sys2Proof.Machine
end

