-- ==== Sys2Proof/Machine/Flags.lean ====
section
/-! DEFINITION. The block's condition flag, the parity of a group, and the numbers of the result codes
(10_state.md R22, R27; 41_wiegand_decoder.md R122; 30_encoding.md R80, R81). CERR, the other flag, is State.faultCerr. -/

namespace Sys2Proof.Machine

/-- `full`: len == 255 (10_state.md R22). -/
def State.full (s : State) : Bool := s.len == 255#8

/-- A bit as a 2-bit number in BVAL (10_state.md R32). -/
def bitValue (b : Bool) : BitVec 2 := if b then 1#2 else 0#2

/-- One 5-bit group in time order (00_scope.md R12, R16). -/
structure BitGroup where
  d0 : Bool
  d1 : Bool
  d2 : Bool
  d3 : Bool
  p  : Bool
deriving DecidableEq, Repr

/-- `Odd(g)`: d0 + d1 + d2 + d3 + p is odd (41_wiegand_decoder.md R122). -/
def BitGroup.odd (g : BitGroup) : Bool :=
  (g.d0.toNat + g.d1.toNat + g.d2.toNat + g.d3.toNat + g.p.toNat) % 2 == 1

/-- The number of a decoder code in WSTAT (30_encoding.md R80). -/
def WCode.number : WCode → BitVec 4
  | .success => 0#4
  | .leadingZeros => 1#4
  | .parityFailure => 2#4
  | .invalidStart => 3#4
  | .lrcParityFailure => 4#4
  | .trailingZeros => 5#4
  | .padFailure => 6#4
  | .prematureEnd => 7#4
  | .bufferTooSmall => 8#4

/-- The number of a store code in SSTAT (30_encoding.md R81). -/
def SCode.number : SCode → BitVec 4
  | .success => 0#4
  | .openFailure => 1#4
  | .recordTooShort => 2#4
  | .recordTooLong => 3#4
  | .invalidRecord => 4#4
  | .recordNotFound => 5#4
  | .eof => 6#4
  | .doesNotExist => 7#4
  | .alreadyExists => 8#4

end Sys2Proof.Machine
end

