-- ==== Sys2Proof/Machine/BitCapture.lean ====
section
/-! DEFINITION. BitCapture: APPEND, CLEAR, ISFULL, BITAT (40_bitcapture.md). -/

namespace Sys2Proof.Machine

/-- `append(bit)`: dropped at capacity, else stored at position len (40_bitcapture.md R100). -/
def appendBit (b : Bool) (s : State) : State :=
  if s.full then s.driveAppOk false
  else { setCell s s.len.toNat b with len := s.len + 1#8 }.driveAppOk true

/-- APPEND (40_bitcapture.md R100, R101). -/
def execAppend (level : Bool) (s : State) : Host.Outcome State Fault Refusal :=
  .next (appendBit (logicalBit level) s)

/-- CLEAR: the cells keep their bits (40_bitcapture.md R103; 10_state.md R42). -/
def execClear (s : State) : Host.Outcome State Fault Refusal :=
  .next { s with len := 0#8 }

/-- ISFULL (40_bitcapture.md R104). -/
def execIsfull (s : State) : Host.Outcome State Fault Refusal :=
  .next { s with bval := bitValue s.full }

/-- `bitAt(i)` (40_bitcapture.md R105). -/
def bitAt (s : State) (i : Nat) : BitVec 2 :=
  if i < s.len.toNat then bitValue (cellAt s i) else Config.noData

/-- BITAT (40_bitcapture.md R105). -/
def execBitat (i : Nat) (s : State) : Host.Outcome State Fault Refusal :=
  .next { s with bval := bitAt s i }

end Sys2Proof.Machine
end

