-- ==== Sys2Proof/Machine/CardStore.lean ====
section
/-! DEFINITION. CardStore: reading and parsing a record, the scans, and LOOKUP, GET, PUT, INSERT, ENUM, DELETE
(42_cardstore.md). -/

namespace Sys2Proof.Machine

/-! ### Reading and parsing one record -/

/-- A line ends at its first newline, which belongs to it (42_cardstore.md R160). -/
def cutLine : Bytes → Bytes
  | [] => []
  | b :: bs => if b = Config.newline then [b] else b :: cutLine bs

/-- `ReadLine(off)` (42_cardstore.md R160). -/
def readLine (st : Store) (off : Nat) : Bytes :=
  if st.size ≤ off then []
  else cutLine (st.mem.readBytes off (min Config.recordLen (st.size - off)))

/-- The two tokens around the first comma, if there is one (42_cardstore.md R161). -/
def splitComma : Bytes → Option (Bytes × Bytes)
  | [] => none
  | b :: bs => if b = Config.comma then some ([], bs) else (splitComma bs).map fun t => (b :: t.1, t.2)

/-- The string without its leading spaces. -/
def trimLeft : Bytes → Bytes
  | [] => []
  | b :: bs => if b = Config.space then trimLeft bs else b :: bs

/-- `Trim(t)`: no leading and no trailing space (42_cardstore.md R161). -/
def trim (t : Bytes) : Bytes := (trimLeft (trimLeft t).reverse).reverse

/-- What parsing one record returns: a record, or a failure code alone (42_cardstore.md R162). -/
inductive ParseResult where
  | record (serial : Bytes) (enabled : Bool)
  | failure (c : SCode)
deriving DecidableEq, Repr

/-- The split of a 12-byte line's body (42_cardstore.md R161 to R163). -/
def parseBody (body : Bytes) : ParseResult :=
  match splitComma body with
  | none => .failure .invalidRecord
  | some (_, []) => .failure .invalidRecord
  | some ([], _) => .failure .invalidRecord
  | some (left, flag :: _) => .record (trim left) (flag == Config.digit1)

/-- The classification of a line, in the order of 42_cardstore.md R162. -/
def parseLine (ln : Bytes) : ParseResult :=
  if ln.length = 0 then .failure .eof
  else if ln.length < Config.recordLen then .failure .recordTooShort
  else if ln[11]? ≠ some Config.newline then .failure .recordTooLong
  else parseBody (ln.take 11)

/-- `ParseAt(off)` (42_cardstore.md R162). -/
def parseAt (st : Store) (off : Nat) : ParseResult := parseLine (readLine st off)

/-- `OpenStore()` (42_cardstore.md R164). -/
def openStore : Medium → SCode
  | .ok => .success
  | .absent => .doesNotExist
  | .unopenable => .openFailure

/-! ### The scans -/

/-- What a search returns (42_cardstore.md R165). -/
inductive ScanResult where
  | found (serial : Bytes) (slot : Nat) (enabled : Bool)
  | failure (c : SCode)
deriving DecidableEq, Repr

/-- The passes a scan may need: one per slot that starts inside the store, and one that meets its end (log entry 21). -/
def scanPasses (st : Store) : Nat := st.size / Config.recordLen + 1

/-- The loop of `Scan(key)` from slot `k` on, for a given number of passes (42_cardstore.md R165). -/
def scanFrom (st : Store) (key : Bytes) : Nat → Nat → ScanResult
  | 0, _ => .failure .recordNotFound
  | n + 1, k =>
    match parseAt st (Config.recordLen * k) with
    | .failure .eof => .failure .recordNotFound
    | .failure c => .failure c
    | .record serial enabled => if serial = key then .found serial k enabled else scanFrom st key n (k + 1)

/-- `Scan(key)` (42_cardstore.md R165). -/
def scan (st : Store) (key : Bytes) : ScanResult := scanFrom st key (scanPasses st) 0

/-- The loop of ENUM from slot `k` on: the visits, and the code (42_cardstore.md R184). -/
def enumFrom (st : Store) : Nat → Nat → List Visit × SCode
  | 0, _ => ([], .success)
  | n + 1, k =>
    match parseAt st (Config.recordLen * k) with
    | .failure .eof => ([], .success)
    | .failure c => ([], c)
    | .record serial enabled =>
      let r := enumFrom st n (k + 1)
      (⟨serial, k, enabled⟩ :: r.1, r.2)

/-! ### The write -/

/-- What `putBySlot` does: a code and nothing written, a write, or no outcome (42_cardstore.md R174; 20_memory.md R57). -/
inductive PutResult where
  | failure (c : SCode)
  | written (st : Store)
  | noRoom
deriving DecidableEq, Repr

/-- The offset PUT writes at: the end, or the slot's own (42_cardstore.md R174, R175). -/
def putOffset (st : Store) (slot : BitVec 16) : Nat :=
  if slot = Config.slotAppend then st.size else slotOffset slot

/-- `putBySlot(slot, record)` on a medium in a given condition (42_cardstore.md R174 to R177). -/
def putBySlot (m : Medium) (storeMax : Nat) (st : Store) (slot : BitVec 16) (serial : Bytes) (enabled : Bool) :
    PutResult :=
  if serial.length ≠ Config.serialLen then .failure .invalidRecord
  else if openStore m ≠ .success then .failure (openStore m)
  else if st.size < putOffset st slot then .failure .eof
  else if storeMax < putOffset st slot + Config.recordLen then .noRoom
  else .written (st.write (putOffset st slot) (encodeRecord serial enabled))

/-- PUT on the registers of a state (42_cardstore.md R174). -/
def putRegisters (s : State) : Host.Outcome State Fault Refusal :=
  match putBySlot s.medium s.storeMax.val s.store s.slot s.ser s.en with
  | .failure c => .next (s.returnS c)
  | .noRoom => .refused .storeFull
  | .written st => .next ((s.setStore st).returnS .success)

/-! ### The commands -/

/-- LOOKUP (42_cardstore.md R167). -/
def execLookup (s : State) : Host.Outcome State Fault Refusal :=
  if openStore s.medium ≠ .success then .next (s.returnS (openStore s.medium))
  else
    match scan s.store s.ser with
    | .failure c => .next (s.returnS c)
    | .found serial k enabled =>
      .next { (s.returnS .success).setRecord serial enabled with slot := BitVec.ofNat 16 k }

/-- GET (42_cardstore.md R170). -/
def execGet (s : State) : Host.Outcome State Fault Refusal :=
  if openStore s.medium ≠ .success then .next (s.returnS (openStore s.medium))
  else if s.store.size ≤ slotOffset s.slot then .next (s.returnS .eof)
  else
    match parseAt s.store (slotOffset s.slot) with
    | .failure c => .next (s.returnS c)
    | .record serial enabled => .next ((s.returnS .success).setRecord serial enabled)

/-- PUT (42_cardstore.md R174). -/
def execPut (s : State) : Host.Outcome State Fault Refusal := putRegisters s

/-- The write of INSERT at `target`; on success SLOT reports `newslot` (42_cardstore.md R180). -/
def insertAt (target : BitVec 16) (newslot : Nat) (s : State) : Host.Outcome State Fault Refusal :=
  match putBySlot s.medium s.storeMax.val s.store target s.ser s.en with
  | .failure c => .next (s.returnS c)
  | .noRoom => .refused .storeFull
  | .written st => .next { (s.setStore st).returnS .success with slot := BitVec.ofNat 16 newslot }

/-- INSERT (42_cardstore.md R180). -/
def execInsert (s : State) : Host.Outcome State Fault Refusal :=
  if openStore s.medium ≠ .success then .next (s.returnS (openStore s.medium))
  else
    match scan s.store s.ser with
    | .found _ _ _ => .next (s.returnS .alreadyExists)
    | .failure .recordNotFound =>
      match scan s.store blankSerial with
      | .found _ k _ => insertAt (BitVec.ofNat 16 k) k s
      | .failure .recordNotFound => insertAt Config.slotAppend (s.store.size / Config.recordLen) s
      | .failure c => .next (s.returnS c)
    | .failure c => .next (s.returnS c)

/-- ENUM (42_cardstore.md R184). -/
def execEnum (s : State) : Host.Outcome State Fault Refusal :=
  if openStore s.medium ≠ .success then .next (s.returnS (openStore s.medium))
  else
    let r := enumFrom s.store (scanPasses s.store) 0
    .next ((s.emitVisits r.1).returnS r.2)

/-- DELETE: its expansion (42_cardstore.md R187). -/
def execDelete (s : State) : Host.Outcome State Fault Refusal := putRegisters (s.setRecord blankSerial false)

end Sys2Proof.Machine
end

