-- ==== Sys2Proof/Machine/WiegandDecoder.lean ====
section
/-! DEFINITION. WiegandDecoder: the function Decode and DECODE, DECODES, FORMAT (41_wiegand_decoder.md). A bit list is
what stands at and after the cursor; reading drops its head. -/

namespace Sys2Proof.Machine

/-- What a decode returns: the pair, or a failure code alone (41_wiegand_decoder.md R120). -/
inductive DecodeResult where
  | pair (facility : BitVec 8) (card : BitVec 16)
  | failure (c : WCode)
deriving DecidableEq, Repr

/-- `code(r)` (41_wiegand_decoder.md R141). -/
def DecodeResult.code : DecodeResult → WCode
  | .pair _ _ => .success
  | .failure c => c

/-- `ReadGroup()`: the group and the bits after it (41_wiegand_decoder.md R122). -/
def readGroup : List Bool → Option (BitGroup × List Bool)
  | d0 :: d1 :: d2 :: d3 :: p :: rest => some (⟨d0, d1, d2, d3, p⟩, rest)
  | _ => none

/-- The START pattern (41_wiegand_decoder.md R127). -/
def BitGroup.isStart (g : BitGroup) : Bool := g.d0 && g.d1 && !g.d2 && g.d3

/-- The END pattern (41_wiegand_decoder.md R129). -/
def BitGroup.isEnd (g : BitGroup) : Bool := g.d0 && g.d1 && g.d2 && g.d3

/-- Step 1: the failure among the first `n` bits, or the bits after them (41_wiegand_decoder.md R123). -/
def leadingZeros : Nat → List Bool → Except WCode (List Bool)
  | 0, bits => .ok bits
  | _ + 1, [] => .error .prematureEnd
  | n + 1, b :: bits => if b then .error .leadingZeros else leadingZeros n bits

/-- One bit into the accumulator: `(acc << 1) | d` in 32 bits (41_wiegand_decoder.md R121, R131). -/
def shiftIn (acc : BitVec 32) (d : Bool) : BitVec 32 := (acc <<< 1) ||| (BitVec.ofBool d).setWidth 32

/-- The three payload bits of a DATA group, in the order d2, d1, d0 (41_wiegand_decoder.md R131; 90_conflicts.md C2). -/
def accumulate (acc : BitVec 32) (g : BitGroup) : BitVec 32 :=
  shiftIn (shiftIn (shiftIn acc g.d2) g.d1) g.d0

/-- Step 4, the groups up to END: the failure, or the accumulator and the bits after END (41_wiegand_decoder.md R128). -/
def groupLoop : List Bool → BitVec 32 → Except WCode (BitVec 32 × List Bool)
  | d0 :: d1 :: d2 :: d3 :: p :: rest, acc =>
    let g : BitGroup := ⟨d0, d1, d2, d3, p⟩
    if !g.odd then .error .parityFailure
    else if g.isEnd then .ok (acc, rest)
    else if g.d3 then .error .padFailure
    else groupLoop rest (accumulate acc g)
  | _, _ => .error .prematureEnd

/-- Step 5: the placeholder bit is discarded and the pair cut out (41_wiegand_decoder.md R135; 90_conflicts.md C4). -/
def extractPair (acc : BitVec 32) : DecodeResult :=
  let value := acc >>> 1
  .pair (((value >>> 16) &&& 0xFF#32).setWidth 8) ((value &&& 0xFFFF#32).setWidth 16)

/-- Steps 4 (LRC) and 5 on the bits after END (41_wiegand_decoder.md R132, R133, R135). -/
def finishFrame (acc : BitVec 32) (bits : List Bool) : DecodeResult :=
  match readGroup bits with
  | none => .failure .prematureEnd
  | some (lrc, rest) =>
    if !lrc.odd then .failure .lrcParityFailure
    else if rest.any id then .failure .trailingZeros
    else extractPair acc

/-- Steps 3 to 5 on the bits after the leading zeros (41_wiegand_decoder.md R127, R128). -/
def decodeGroups (bits : List Bool) : DecodeResult :=
  match readGroup bits with
  | none => .failure .prematureEnd
  | some (g, rest) =>
    if !g.odd then .failure .parityFailure
    else if !g.isStart then .failure .invalidStart
    else
      match groupLoop rest 0#32 with
      | .error c => .failure c
      | .ok (acc, rest') => finishFrame acc rest'

/-- `Decode(b, L)` with `L` the length of the list (41_wiegand_decoder.md R120, R139). -/
def decodeFrame (bits : List Bool) : DecodeResult :=
  match leadingZeros Config.lead bits with
  | .error c => .failure c
  | .ok rest => decodeGroups rest

/-- The registers a decode writes: WSTAT always, FAC and CARD on success (41_wiegand_decoder.md R141). -/
def storeDecode (r : DecodeResult) (s : State) : State :=
  match r with
  | .pair f c => (s.returnW .success).setPair f c
  | .failure c => s.returnW c

/-- As storeDecode, and SER on success (41_wiegand_decoder.md R142). -/
def storeDecodeSerial (r : DecodeResult) (s : State) : State :=
  match r with
  | .pair f c => { (s.returnW .success).setPair f c with ser := formatSerial f c }
  | .failure c => s.returnW c

/-- DECODE (41_wiegand_decoder.md R140, R141). -/
def execDecode (s : State) : Host.Outcome State Fault Refusal :=
  if s.full then .next (storeDecode (decodeFrame (capture s)) s) else .next s.faultCerr

/-- DECODES cap (41_wiegand_decoder.md R140, R142). -/
def execDecodes (cap : Nat) (s : State) : Host.Outcome State Fault Refusal :=
  if s.full then
    if cap < Config.serialLen then .next (s.returnW .bufferTooSmall)
    else .next (storeDecodeSerial (decodeFrame (capture s)) s)
  else .next s.faultCerr

/-- FORMAT (41_wiegand_decoder.md R143). -/
def execFormat (s : State) : Host.Outcome State Fault Refusal :=
  .next { s with ser := formatSerial s.fac s.card }

end Sys2Proof.Machine
end

