-- ==== Sys2Proof/Machine/Dispatch.lean ====
section
/-! DEFINITION. One arm per instruction (30_encoding.md R74). -/

namespace Sys2Proof.Machine

def exec (i : Instr) (s : State) : Host.Outcome State Fault Refusal :=
  match i with
  | .append level => Sys2Proof.Machine.execAppend level s
  | .clear => Sys2Proof.Machine.execClear s
  | .isfull => Sys2Proof.Machine.execIsfull s
  | .bitat pos => Sys2Proof.Machine.execBitat pos s
  | .decode => Sys2Proof.Machine.execDecode s
  | .decodes cap => Sys2Proof.Machine.execDecodes cap s
  | .format => Sys2Proof.Machine.execFormat s
  | .lookup => Sys2Proof.Machine.execLookup s
  | .get => Sys2Proof.Machine.execGet s
  | .put => Sys2Proof.Machine.execPut s
  | .insert => Sys2Proof.Machine.execInsert s
  | .enum => Sys2Proof.Machine.execEnum s
  | .delete => Sys2Proof.Machine.execDelete s

end Sys2Proof.Machine
end

