-- ==== Sys2Proof/Machine/Ports.lean ====
section
/-! DEFINITION. Serving one input: a port's word, a host access to a register, a change of the medium, a reset
(30_encoding.md R71, R77; 10_state.md R30; 70_reset_and_hazards.md R240). -/

namespace Sys2Proof.Machine

/-- What a port's word does: the instruction it decodes to; nothing for an event without a card (30_encoding.md R71);
the command fault for an illegal command word (30_encoding.md R77). -/
def runWord (p : PortWord) (s : State) : Host.Outcome State Fault Refusal :=
  match decode p with
  | .ok i => exec i s
  | .error .notPresent => .next s
  | .error .illegalOpcode => .next s.faultCerr
  | .error .operandByteNotZero => .next s.faultCerr

/-- Loading a host-writable register with a value that fits it (10_state.md R30, R34 to R38). -/
def loadRegister (r : Reg) (v : PortValue) (s : State) : State :=
  match r, v with
  | .fac, .word n => { s with fac := BitVec.ofNat 8 n }
  | .card, .word n => { s with card := BitVec.ofNat 16 n }
  | .ser, .text bs => { s with ser := bs }
  | .slot, .word n => { s with slot := BitVec.ofNat 16 n }
  | .en, .word n => { s with en := decide (n = 1) }
  | _, _ => s

/-- The registers the host may write (10_state.md R30). -/
def hostWritable : Reg → Bool
  | .cmd | .fac | .card | .ser | .slot | .en => true
  | .bval | .wstat | .sstat | .cerr => false

/-- A host write: CMD executes the word, the others hold it; the spec refuses the rest (10_state.md R30, R31;
93_implementation_defined.md U16, U17). -/
def hostWrite (r : Reg) (v : PortValue) (s : State) : Host.Outcome State Fault Refusal :=
  if !hostWritable r then .refused .readOnlyRegister
  else if !r.accepts v then .refused .portCannotCarry
  else
    match r, v with
    | .cmd, .word n => runWord (.command (BitVec.ofNat 16 n)) s
    | _, _ => .next (loadRegister r v s)

/-- What a register reads as (10_state.md R30; the codes as numbers, 30_encoding.md R80, R81); none for CMD. -/
def registerValue (r : Reg) (s : State) : Option PortValue :=
  match r with
  | .cmd => none
  | .bval => some (.word s.bval.toNat)
  | .wstat => some (.word s.wstat.number.toNat)
  | .fac => some (.word s.fac.toNat)
  | .card => some (.word s.card.toNat)
  | .ser => some (.text s.ser)
  | .slot => some (.word s.slot.toNat)
  | .en => some (.word s.en.toNat)
  | .sstat => some (.word s.sstat.number.toNat)
  | .cerr => some (.word s.cerr.toNat)

/-- A host read: the value goes out on the port, and nothing else changes (10_state.md R30; 20_memory.md R55). -/
def hostRead (r : Reg) (s : State) : Host.Outcome State Fault Refusal :=
  match registerValue r s with
  | some v => .next { s with reads := s.reads ++ [(r, v)] }
  | none => .refused .writeOnlyRegister

/-- One input, one atomic step (20_memory.md R60). -/
def serve (i : Input) (s : State) : Host.Outcome State Fault Refusal :=
  match i with
  | .event ev => runWord (.event ev) s
  | .write r v => hostWrite r v s
  | .read r => hostRead r s
  | .medium m => .next { s with medium := m }
  | .reset => .next s.resetBlock

/-- The input that presents a port's word (30_encoding.md R70, R72). -/
def PortWord.input : PortWord → Input
  | .event ev => .event ev
  | .command w => .write .cmd (.word w.toNat)

/-- The host's write of the register with number `no`; no input where no register has that number (10_state.md R30;
20_memory.md R50; log entry 25). -/
def writeAccess (no : Nat) (v : PortValue) : Option Input := (Reg.ofNumber no).map fun r => .write r v

/-- The host's read of the register with number `no` (10_state.md R30; 20_memory.md R50; log entry 25). -/
def readAccess (no : Nat) : Option Input := (Reg.ofNumber no).map .read

/-- The next input and the state in which it is served (20_memory.md R60; log entry 1). -/
def nextInput (s : State) : Option (Input × State) :=
  match s.inputs with
  | [] => none
  | i :: rest => some (i, { s with inputs := rest })

/-- A state in which `i` comes next. -/
def State.present (s : State) (i : Input) : State := { s with inputs := i :: s.inputs }

end Sys2Proof.Machine
end

