-- ==== Sys2Proof/Machine/Step.lean ====
section
/-! DEFINITION. One step: the next input is served; with none to come the block is idle (20_memory.md R60;
70_reset_and_hazards.md R242; log entries 1, 2). -/

namespace Sys2Proof.Machine

def step (s : State) : Host.Outcome State Fault Refusal :=
  match nextInput s with
  | none => .next s
  | some (i, s') => serve i s'

/-- `s` with a table row's word presented next on its port (log entry 3). -/
def State.withFetchWord (s : State) (nbits w : Nat) : State :=
  match tableWord nbits w with
  | some p => s.present (PortWord.input p)
  | none => s

end Sys2Proof.Machine
end

