-- ==== Sys2Proof/Safety.lean ====
section
/-! DEFINITION. The terms that claims use: the invariant of the machine, good runs, the shape of a frame, records of a
store, and legal command words. -/

namespace Sys2Proof.Safety

open Sys2Proof.Machine

/-- What holds at launch and after every step: the store's bytes are canonical, lie below `size` and fit the medium
(10_state.md R24; 20_memory.md R57), SER fits its cells (R36), and BVAL is not the value 3 (R32). -/
structure Inv (s : State) : Prop where
  memWf    : s.store.mem.wf = true
  memBelow : s.store.mem.below s.store.size = true
  sizeFits : s.store.size ≤ s.storeMax.val
  serFits  : s.ser.length ≤ Config.serialMax
  bvalLegal : s.bval ≠ 3#2

/-- `n` steps, stopping at the first that has no next state. -/
def run : Nat → State → Host.Outcome State Fault Refusal
  | 0, s => .next s
  | n + 1, s =>
    match step s with
    | .next t => run n t
    | .fault r => .fault r
    | .refused r => .refused r

/-- `n` steps from `s` end in `t`, and no command of the run was illegal or refused (30_encoding.md R77; 10_state.md R40). -/
def GoodRun (n : Nat) (s t : State) : Prop :=
  run n s = .next t ∧ t.cerr = false

/-! ### Words -/

/-- The ten opcodes without an operand byte (30_encoding.md R74). -/
def formatNOpcodes : List (BitVec 8) :=
  [0x10#8, 0x11#8, 0x13#8, 0x15#8, 0x20#8, 0x21#8, 0x22#8, 0x23#8, 0x24#8, 0x25#8]

/-- The legal command words by their fields: `op` with operand byte 0, or 0x12 or 0x14 with any (30_encoding.md R75). -/
def LegalWord (w : BitVec 16) : Prop :=
  (∃ op ∈ formatNOpcodes, w = op ++ 0x00#8) ∨ (∃ imm : BitVec 8, w = 0x12#8 ++ imm ∨ w = 0x14#8 ++ imm)

/-- The event word of an edge with a card present (30_encoding.md R70). -/
def edgeWord (level : Bool) : BitVec 2 := if level then 0b11#2 else 0b10#2

/-! ### Frames -/

/-- The five bits of a group on the wire (00_scope.md R12). -/
def groupBits (g : BitGroup) : List Bool := [g.d0, g.d1, g.d2, g.d3, g.p]

/-- START, `1 1 0 1 0` (30_encoding.md R85). -/
def startGroup : BitGroup := ⟨true, true, false, true, false⟩

/-- END, `1 1 1 1 1` (30_encoding.md R85). -/
def endGroup : BitGroup := ⟨true, true, true, true, true⟩

/-- A DATA group: odd parity and pad bit 0 (30_encoding.md R85). -/
def IsData (g : BitGroup) : Prop := g.odd = true ∧ g.d3 = false

/-- The 25 leading zeros, START, and DATA groups. -/
def frameHead (gs : List BitGroup) : List Bool :=
  List.replicate 25 false ++ groupBits startGroup ++ gs.flatMap groupBits

/-- The shape of a 255-bit frame with DATA groups `gs` (30_encoding.md R85). -/
structure IsFrame (bits : List Bool) (gs : List BitGroup) (lrc : BitGroup) : Prop where
  few    : gs.length ≤ 43
  data   : ∀ g ∈ gs, IsData g
  lrcOdd : lrc.odd = true
  layout : bits = frameHead gs ++ groupBits endGroup ++ groupBits lrc ++ List.replicate (215 - 5 * gs.length) false

/-- The octal digit of a DATA group, `d0 + 2 d1 + 4 d2` (41_wiegand_decoder.md R131). -/
def groupDigit (g : BitGroup) : Nat := g.d0.toNat + 2 * g.d1.toNat + 4 * g.d2.toNat

/-- The payload of DATA groups as an unbounded number, most significant digit first (41_wiegand_decoder.md R131, R136). -/
def payload (gs : List BitGroup) : Nat := gs.foldl (fun acc g => 8 * acc + groupDigit g) 0

/-! ### Records -/

/-- A serial that is written and read back unchanged: 9 bytes, no comma, no newline, no outer space
(42_cardstore.md R182, R188). -/
def canonicalSerial (b : Bytes) : Bool :=
  decide (b.length = 9) && !b.contains 0x2C#8 && !b.contains 0x0A#8 &&
    (b.head? != some 0x20#8) && (b.getLast? != some 0x20#8)

/-- The twelve bytes of a record, `serial , flag newline` (30_encoding.md R82). -/
def recordBytes (serial : Bytes) (enabled : Bool) : Bytes :=
  serial ++ [0x2C#8, if enabled then 0x31#8 else 0x30#8, 0x0A#8]

/-- The store is the concatenation of the canonical records `rs`, slot 0 first (10_state.md R24; 42_cardstore.md R188). -/
structure HoldsRecords (st : Store) (rs : List (Bytes × Bool)) : Prop where
  memWf     : st.mem.wf = true
  memBelow  : st.mem.below st.size = true
  canonical : ∀ r ∈ rs, canonicalSerial r.1 = true
  size_eq   : st.size = 12 * rs.length
  bytes_eq  : st.bytes = rs.flatMap fun r => recordBytes r.1 r.2

/-- The slots below `k` all parse, and none has the serial `key` (42_cardstore.md R165). -/
def NoMatchBelow (st : Store) (key : Bytes) (k : Nat) : Prop :=
  ∀ j < k, ∃ serial enabled, parseAt st (12 * j) = .record serial enabled ∧ serial ≠ key

/-- The slots 0, 1, ... parse to the records `rs`, in order. -/
def ParsesTo (st : Store) (rs : List (Bytes × Bool)) : Prop :=
  ∀ (k : Nat) (r : Bytes × Bool), rs[k]? = some r → parseAt st (12 * k) = .record r.1 r.2

/-- `st'` differs from `st` in the twelve bytes at `off`, which hold a record, and in `size` where that extends it
(20_memory.md R57; 42_cardstore.md R188). -/
structure WroteRecord (st st' : Store) (off : Nat) (serial : Bytes) (enabled : Bool) : Prop where
  size_eq : st'.size = max st.size (off + 12)
  inside  : ∀ i < 12, some (st'.mem.readByte (off + i)) = (recordBytes serial enabled)[i]?
  outside : ∀ a, a < off ∨ off + 12 ≤ a → st'.mem.readByte a = st.mem.readByte a
  memWf   : st'.mem.wf = true

/-! ### Observation -/

/-- Two states that differ at most in the cells of the capture buffer at or above `len` (10_state.md R42). -/
def SameBelowLen (s s' : State) : Prop :=
  s' = { s with buf := s'.buf } ∧ ∀ j < s.len.toNat, cellAt s' j = cellAt s j

end Sys2Proof.Safety
end

