-- ==== Sys2Proof/Certificates/Slice0/Obligations.lean ====
section
/-! DEFINITION. The statements for the provers. Each docstring names the rule of spec/ it is about. -/

open Sys2Proof
open Sys2Proof.Machine
open Sys2Proof.Safety

/-! ### Encodings and the step -/

/-- Every well-formed instruction is decoded back from its word, with its operand at every value (30_encoding.md R70 to
R75). -/
def Obligations.EncodedInstrDecodesBack : Prop :=
  ∀ i : Instr, i.wf = true → decode (encode i) = .ok i

/-- Every word that decodes is the word of the instruction it decodes to: no word has two meanings and no two rows
overlap (30_encoding.md R75). -/
def Obligations.DecodedWordIsItsEncoding : Prop :=
  ∀ (p : PortWord) (i : Instr), decode p = .ok i → i.wf = true ∧ encode i = p

/-- Seven words written out from 30_encoding.md R70, R74 are read as the instructions they stand for, and six that are
none as nothing. That a row's number of one byte names an event word and one of two bytes a command word is the model's
choice (log entry 17). -/
def Obligations.TableWordsDecode : Prop :=
  decodeTableWord 8 0b10 = some (.append false) ∧ decodeTableWord 8 0b11 = some (.append true) ∧
  decodeTableWord 8 0b00 = none ∧ decodeTableWord 16 0x1000 = some .clear ∧
  decodeTableWord 16 0x12FE = some (.bitat 254) ∧ decodeTableWord 16 0x1409 = some (.decodes 9) ∧
  decodeTableWord 16 0x2300 = some .insert ∧ decodeTableWord 16 0x2500 = some .delete ∧
  decodeTableWord 16 0x1301 = none ∧ decodeTableWord 16 0x0000 = none ∧ decodeTableWord 16 0x1600 = none ∧
  decodeTableWord 16 0x2600 = none ∧ decodeTableWord 16 0xFFFF = none

/-- A step whose next input is a port's word that decodes to `i` is exec of `i` on the state with that input taken
(20_memory.md R60; log entries 1, 3). -/
def Obligations.StepRunsDecodedInstr : Prop :=
  ∀ (s : State) (p : PortWord) (i : Instr) (rest : List Input),
    s.inputs = PortWord.input p :: rest → decode p = .ok i → step s = exec i { s with inputs := rest }

/-- Event words: with a card present the inverted level is appended, without one nothing happens (30_encoding.md R71). -/
def Obligations.EventWordsDecodeByPresent : Prop :=
  ∀ (s : State) (ev : BitVec 2) (rest : List Input), s.inputs = .event ev :: rest →
    (ev[1] = true → step s = exec (.append ev[0]) { s with inputs := rest } ∧
      step s = .next (appendBit (!ev[0]) { s with inputs := rest })) ∧
    (ev[1] = false → step s = .next { s with inputs := rest })

/-- An illegal command word, and a decode of a buffer that is not full, set CERR and change nothing else; the legal
words are exactly those that decode (30_encoding.md R75, R77). -/
def Obligations.IllegalCommandOnlySetsCerr : Prop :=
  (∀ w : BitVec 16, LegalWord w ↔ ∃ i, decode (.command w) = .ok i) ∧
  (∀ (s : State) (w : BitVec 16) (rest : List Input), s.inputs = .write .cmd (.word w.toNat) :: rest → ¬ LegalWord w →
    step s = .next { s with inputs := rest, cerr := true }) ∧
  (∀ s : State, s.len ≠ 255#8 → exec .decode s = .next { s with cerr := true } ∧
    ∀ cap, exec (.decodes cap) s = .next { s with cerr := true })

/-- With no input to come the block is idle and keeps its state (the model's choice, log entry 2). -/
def Obligations.IdleBlockKeepsState : Prop :=
  ∀ s : State, s.inputs = [] → step s = .next s

/-! ### BitCapture -/

/-- APPEND (40_bitcapture.md R100, R101): the event word 1d and no command word; below capacity the inverted level is
stored at position len, and len and the app_ok output follow; at capacity only app_ok does. -/
def Obligations.AppendStoresInvertedLevel : Prop :=
  (∀ level, encode (.append level) = .event (edgeWord level) ∧ ∀ w, decode (.command w) ≠ .ok (.append level)) ∧
  ∀ (s : State) (level : Bool),
    (s.len ≠ 255#8 → ∃ t, exec (.append level) s = .next t ∧
      t = { s with buf := t.buf, len := t.len, appOks := s.appOks ++ [true] } ∧
      t.len.toNat = s.len.toNat + 1 ∧
      ∀ j < 255, cellAt t j = if j = s.len.toNat then !level else cellAt s j) ∧
    (s.len = 255#8 → exec (.append level) s = .next { s with appOks := s.appOks ++ [false] })

/-- CLEAR (40_bitcapture.md R103): the length becomes 0 and nothing else changes. -/
def Obligations.ClearOnlyResetsLength : Prop :=
  encode .clear = .command 0x1000#16 ∧ ∀ s : State, exec .clear s = .next { s with len := 0#8 }

/-- ISFULL (40_bitcapture.md R104). -/
def Obligations.IsfullAnswersCapacity : Prop :=
  encode .isfull = .command 0x1100#16 ∧
  ∀ s : State, (s.len.toNat = 255 → exec .isfull s = .next { s with bval := 1#2 }) ∧
    (s.len.toNat < 255 → exec .isfull s = .next { s with bval := 0#2 })

/-- BITAT (40_bitcapture.md R105): the stored bit below len, NODATA = 2 at and above it. -/
def Obligations.BitatAnswersStoredBit : Prop :=
  (∀ i < 256, encode (.bitat i) = .command (0x1200#16 ||| BitVec.ofNat 16 i)) ∧
  ∀ (s : State) (i : Nat),
    (i < s.len.toNat → exec (.bitat i) s = .next { s with bval := if cellAt s i then 1#2 else 0#2 }) ∧
    (s.len.toNat ≤ i → exec (.bitat i) s = .next { s with bval := 2#2 })

/-- Events that fill free positions leave the inverted levels there in time order, however many come
(40_bitcapture.md R100 to R102; 00_scope.md R12). -/
def Obligations.EdgesFillBufferInTimeOrder : Prop :=
  ∀ (levels : List Bool) (s : State) (rest : List Input),
    s.inputs = levels.map (fun d => .event (edgeWord d)) ++ rest → s.len.toNat + levels.length ≤ 255 →
    ∃ t, Safety.run levels.length s = .next t ∧
      t = { s with buf := t.buf, len := t.len, inputs := rest,
                   appOks := s.appOks ++ List.replicate levels.length true } ∧
      t.len.toNat = s.len.toNat + levels.length ∧
      ∀ j < 255, cellAt t j =
        if h : s.len.toNat ≤ j ∧ j < s.len.toNat + levels.length then !levels[j - s.len.toNat] else cellAt s j

/-- While the buffer is full no number of events changes it, nor anything else but the app_ok output
(20_memory.md R62). -/
def Obligations.FullBufferIsFrozenUnderEvents : Prop :=
  ∀ (evs : List (BitVec 2)) (s : State) (rest : List Input),
    s.inputs = evs.map .event ++ rest → s.len = 255#8 →
    Safety.run evs.length s = .next { s with
      inputs := rest, appOks := s.appOks ++ List.replicate (evs.filter fun ev => ev[1]).length false }

/-- Only an event with a card present, below capacity, writes a cell; only such an event, CLEAR and reset write the
length (10_state.md R20, R21; 20_memory.md R61). -/
def Obligations.CaptureWrittenByProducerAndClear : Prop :=
  ∀ s t : State, step s = .next t →
    (t.buf ≠ s.buf → ∃ level rest, s.inputs = .event (edgeWord level) :: rest ∧ s.len ≠ 255#8) ∧
    (t.len ≠ s.len → ∃ rest, (∃ level, s.inputs = .event (edgeWord level) :: rest ∧ s.len ≠ 255#8) ∨
      s.inputs = .write .cmd (.word 0x1000) :: rest ∨ s.inputs = .reset :: rest)

/-- In every step the length becomes 0, or stays, or grows by one, and then every stored bit stays
(40_bitcapture.md R106). -/
def Obligations.StoredBitsStayUntilCleared : Prop :=
  ∀ s t : State, step s = .next t →
    t.len = 0#8 ∨ ((t.len.toNat = s.len.toNat ∨ t.len.toNat = s.len.toNat + 1) ∧
      ∀ j < s.len.toNat, cellAt t j = cellAt s j)

/-- No step can tell apart two states that differ only in cells at or above len (10_state.md R42). -/
def Obligations.StaleCellsAreUnobservable : Prop :=
  ∀ s s' : State, SameBelowLen s s' →
    (∃ t t', step s = .next t ∧ step s' = .next t' ∧ SameBelowLen t t') ∨
    (∃ r, step s = .refused r ∧ step s' = .refused r)

/-! ### WiegandDecoder -/

/-- A 255-bit sequence decodes to SUCCESS exactly when it has the shape of a frame (30_encoding.md R85). -/
def Obligations.DecodeSucceedsExactlyOnFrames : Prop :=
  ∀ bits : List Bool, bits.length = 255 →
    ((decodeFrame bits).code = .success ↔ ∃ gs lrc, IsFrame bits gs lrc)

/-- The pair a frame decodes to, from its payload as an unbounded number: the width of the accumulator does not matter
(41_wiegand_decoder.md R131, R135, R136). -/
def Obligations.DecodedPairIsThePayload : Prop :=
  ∀ (bits : List Bool) (gs : List BitGroup) (lrc : BitGroup), IsFrame bits gs lrc →
    decodeFrame bits = .pair (BitVec.ofNat 8 (payload gs / 2 ^ 17)) (BitVec.ofNat 16 (payload gs / 2))

/-- A 1 among the first 25 bits decides the decode, whatever else is wrong, and a sequence of zeros that is too short for
step 1 runs out (41_wiegand_decoder.md R123; 60_exceptions.md R205). -/
def Obligations.LeadingOneDecidesDecode : Prop :=
  ∀ bits : List Bool,
    (∀ i < 25, bits[i]? = some true → decodeFrame bits = .failure .leadingZeros) ∧
    (bits.length < 25 → true ∉ bits → decodeFrame bits = .failure .prematureEnd)

/-- The outcome of a decode from its first cause in reading order, whatever follows it (60_exceptions.md R201, R205;
41_wiegand_decoder.md R122 to R134): each failure, and the success of every sequence that has none, with the pair of its
payload. -/
def Obligations.DecodeFailuresByFirstCause : Prop :=
  (∀ (bits : List Bool) (i : Nat), i < 25 → bits[i]? = some true → decodeFrame bits = .failure .leadingZeros) ∧
  (∀ n < 25, decodeFrame (List.replicate n false) = .failure .prematureEnd) ∧
  (∀ tail : List Bool, tail.length < 5 →
    decodeFrame (List.replicate 25 false ++ tail) = .failure .prematureEnd) ∧
  (∀ (g : BitGroup) (rest : List Bool),
    (g.odd = false → decodeFrame (List.replicate 25 false ++ groupBits g ++ rest) = .failure .parityFailure) ∧
    (g.odd = true → g ≠ startGroup →
      decodeFrame (List.replicate 25 false ++ groupBits g ++ rest) = .failure .invalidStart)) ∧
  (∀ gs : List BitGroup, (∀ g ∈ gs, IsData g) →
    (∀ tail : List Bool, tail.length < 5 → decodeFrame (frameHead gs ++ tail) = .failure .prematureEnd) ∧
    (∀ (g : BitGroup) (rest : List Bool),
      (g.odd = false → decodeFrame (frameHead gs ++ groupBits g ++ rest) = .failure .parityFailure) ∧
      (g.odd = true → g.d3 = true → g ≠ endGroup →
        decodeFrame (frameHead gs ++ groupBits g ++ rest) = .failure .padFailure)) ∧
    (∀ tail : List Bool, tail.length < 5 →
      decodeFrame (frameHead gs ++ groupBits endGroup ++ tail) = .failure .prematureEnd) ∧
    (∀ (lrc : BitGroup) (rest : List Bool),
      (lrc.odd = false →
        decodeFrame (frameHead gs ++ groupBits endGroup ++ groupBits lrc ++ rest) = .failure .lrcParityFailure) ∧
      (lrc.odd = true → true ∈ rest →
        decodeFrame (frameHead gs ++ groupBits endGroup ++ groupBits lrc ++ rest) = .failure .trailingZeros) ∧
      (lrc.odd = true → true ∉ rest →
        decodeFrame (frameHead gs ++ groupBits endGroup ++ groupBits lrc ++ rest) =
          .pair (BitVec.ofNat 8 (payload gs / 2 ^ 17)) (BitVec.ofNat 16 (payload gs / 2)))))

/-- Flipping one parity bit of a frame's START, DATA or END group gives PARITY_FAILURE and no other error, and of its LRC
group LRC_PARITY_FAILURE (95_test_vectors.md SP2; 41_wiegand_decoder.md R126, R132). -/
def Obligations.FlippedParityBitIsReported : Prop :=
  ∀ (bits : List Bool) (gs : List BitGroup) (lrc : BitGroup), IsFrame bits gs lrc →
    (∀ j ≤ gs.length + 1, decodeFrame (bits.modify (29 + 5 * j) not) = .failure .parityFailure) ∧
    decodeFrame (bits.modify (39 + 5 * gs.length) not) = .failure .lrcParityFailure

/-- A decode that fails never answers SUCCESS or BUFFER_TOO_SMALL (41_wiegand_decoder.md R120). -/
def Obligations.DecodeFailsWithDecodeCodes : Prop :=
  ∀ (bits : List Bool) (c : WCode), decodeFrame bits = .failure c → c ≠ .success ∧ c ≠ .bufferTooSmall

/-- DECODE (41_wiegand_decoder.md R140, R141): WSTAT always and never BUFFER_TOO_SMALL, FAC and CARD on success, CERR
alone when not full. -/
def Obligations.DecodeWritesItsResult : Prop :=
  encode .decode = .command 0x1300#16 ∧
  ∀ s : State,
    (s.len = 255#8 →
      (∀ f c, decodeFrame s.buf.toList = .pair f c →
        exec .decode s = .next { s with wstat := .success, fac := f, card := c }) ∧
      (∀ c, decodeFrame s.buf.toList = .failure c → exec .decode s = .next { s with wstat := c }) ∧
      ∃ t, exec .decode s = .next t ∧ t.wstat ≠ .bufferTooSmall) ∧
    (s.len ≠ 255#8 → exec .decode s = .next { s with cerr := true })

/-- DECODES (41_wiegand_decoder.md R140, R142): the capacity first, then as DECODE, and SER on success. -/
def Obligations.DecodesWritesSerial : Prop :=
  (∀ cap < 256, encode (.decodes cap) = .command (0x1400#16 ||| BitVec.ofNat 16 cap)) ∧
  ∀ (s : State) (cap : Nat),
    (s.len = 255#8 → cap < 9 → exec (.decodes cap) s = .next { s with wstat := .bufferTooSmall }) ∧
    (s.len = 255#8 → 9 ≤ cap →
      (∀ f c, decodeFrame s.buf.toList = .pair f c →
        exec (.decodes cap) s = .next { s with wstat := .success, fac := f, card := c, ser := formatSerial f c }) ∧
      (∀ c, decodeFrame s.buf.toList = .failure c → exec (.decodes cap) s = .next { s with wstat := c })) ∧
    (s.len ≠ 255#8 → exec (.decodes cap) s = .next { s with cerr := true })

/-- FORMAT (41_wiegand_decoder.md R143). -/
def Obligations.FormatWritesSerialOnly : Prop :=
  encode .format = .command 0x1500#16 ∧
  ∀ s : State, exec .format s = .next { s with ser := formatSerial s.fac s.card } ∧
    (formatSerial s.fac s.card).length = 9

/-- The canonical serial spells the two numbers in zero-padded decimal digits around a hyphen, and so no two pairs share
one (30_encoding.md R84). -/
def Obligations.SerialSpellsThePair : Prop :=
  ∀ (f : BitVec 8) (c : BitVec 16),
    (∃ a₁ a₂ a₃ b₁ b₂ b₃ b₄ b₅ : Nat,
      (a₁ < 10 ∧ a₂ < 10 ∧ a₃ < 10 ∧ b₁ < 10 ∧ b₂ < 10 ∧ b₃ < 10 ∧ b₄ < 10 ∧ b₅ < 10) ∧
      f.toNat = 100 * a₁ + 10 * a₂ + a₃ ∧ c.toNat = 10000 * b₁ + 1000 * b₂ + 100 * b₃ + 10 * b₄ + b₅ ∧
      formatSerial f c =
        [BitVec.ofNat 8 (0x30 + a₁), BitVec.ofNat 8 (0x30 + a₂), BitVec.ofNat 8 (0x30 + a₃), 0x2D#8,
         BitVec.ofNat 8 (0x30 + b₁), BitVec.ofNat 8 (0x30 + b₂), BitVec.ofNat 8 (0x30 + b₃),
         BitVec.ofNat 8 (0x30 + b₄), BitVec.ofNat 8 (0x30 + b₅)]) ∧
    ∀ (f' : BitVec 8) (c' : BitVec 16), formatSerial f c = formatSerial f' c' → f = f' ∧ c = c'

/-! ### CardStore -/

/-- A record that was encoded from a canonical serial parses back to it and its flag (30_encoding.md R82;
42_cardstore.md R162, R163). -/
def Obligations.CanonicalRecordParsesBack : Prop :=
  ∀ (serial : Bytes) (enabled : Bool), canonicalSerial serial = true →
    parseLine (recordBytes serial enabled) = .record serial enabled

/-- The classification of the bytes at an offset (42_cardstore.md R160 to R163): no bytes, an early newline or an early
end, no newline, no usable comma, or a record whose serial loses its outer spaces and nothing else. -/
def Obligations.BytesAtOffsetClassified : Prop :=
  ∀ (st : Store) (off : Nat),
    (st.size ≤ off → parseAt st off = .failure .eof) ∧
    (off < st.size → st.size < off + 12 → parseAt st off = .failure .recordTooShort) ∧
    (off + 12 ≤ st.size → ∀ raw, raw = st.mem.readBytes off 12 →
      (0x0A#8 ∈ raw.take 11 → parseAt st off = .failure .recordTooShort) ∧
      (0x0A#8 ∉ raw → parseAt st off = .failure .recordTooLong) ∧
      (∀ body, raw = body ++ [0x0A#8] → 0x0A#8 ∉ body →
        (0x2C#8 ∉ body → parseAt st off = .failure .invalidRecord) ∧
        (∀ right, body = 0x2C#8 :: right → parseAt st off = .failure .invalidRecord) ∧
        (∀ left, body = left ++ [0x2C#8] → 0x2C#8 ∉ left → parseAt st off = .failure .invalidRecord) ∧
        (∀ (n m : Nat) (serial : Bytes) (flag : Byte) (more : Bytes),
          body = List.replicate n 0x20#8 ++ serial ++ List.replicate m 0x20#8 ++ 0x2C#8 :: flag :: more →
          0x2C#8 ∉ serial → 0 < n + serial.length + m →
          serial.head? ≠ some 0x20#8 → serial.getLast? ≠ some 0x20#8 →
          parseAt st off = .record serial (decide (flag = 0x31#8)))))

/-- LOOKUP (42_cardstore.md R164, R165, R167): the first slot that matches, does not parse, or is not there decides; there
always is one. -/
def Obligations.LookupAnswersFirstDecidingSlot : Prop :=
  encode .lookup = .command 0x2000#16 ∧
  (∀ (st : Store) (key : Bytes), ∃ k, NoMatchBelow st key k ∧
    ((∃ enabled, parseAt st (12 * k) = .record key enabled) ∨ ∃ c, parseAt st (12 * k) = .failure c)) ∧
  ∀ s : State,
    (s.medium = .absent → exec .lookup s = .next { s with sstat := .doesNotExist }) ∧
    (s.medium = .unopenable → exec .lookup s = .next { s with sstat := .openFailure }) ∧
    (s.medium = .ok → ∀ k, NoMatchBelow s.store s.ser k →
      (∀ enabled, parseAt s.store (12 * k) = .record s.ser enabled →
        exec .lookup s = .next { s with sstat := .success, slot := BitVec.ofNat 16 k, en := enabled }) ∧
      (parseAt s.store (12 * k) = .failure .eof → exec .lookup s = .next { s with sstat := .recordNotFound }) ∧
      (∀ c, c ≠ .eof → parseAt s.store (12 * k) = .failure c → exec .lookup s = .next { s with sstat := c }))

/-- GET (42_cardstore.md R164, R170): the record at 12 × SLOT, or EOF at and beyond the end. -/
def Obligations.GetReadsTheSlot : Prop :=
  encode .get = .command 0x2100#16 ∧
  ∀ s : State,
    (s.medium = .absent → exec .get s = .next { s with sstat := .doesNotExist }) ∧
    (s.medium = .unopenable → exec .get s = .next { s with sstat := .openFailure }) ∧
    (s.medium = .ok →
      (s.store.size ≤ 12 * s.slot.toNat → exec .get s = .next { s with sstat := .eof }) ∧
      (12 * s.slot.toNat < s.store.size →
        (∀ serial enabled, parseAt s.store (12 * s.slot.toNat) = .record serial enabled →
          exec .get s = .next { s with sstat := .success, ser := serial, en := enabled }) ∧
        (∀ c, parseAt s.store (12 * s.slot.toNat) = .failure c → exec .get s = .next { s with sstat := c })))

/-- PUT (42_cardstore.md R174 to R176; 20_memory.md R57): length, medium, range, room, and then exactly the twelve bytes
of the record at the end or at 12 × SLOT, and `size`. -/
def Obligations.PutWritesOneRecord : Prop :=
  encode .put = .command 0x2200#16 ∧
  ∀ s : State,
    (s.ser.length ≠ 9 → exec .put s = .next { s with sstat := .invalidRecord }) ∧
    (s.ser.length = 9 →
      (s.medium = .absent → exec .put s = .next { s with sstat := .doesNotExist }) ∧
      (s.medium = .unopenable → exec .put s = .next { s with sstat := .openFailure }) ∧
      (s.medium = .ok →
        (s.slot ≠ 0xFFFF#16 → s.store.size < 12 * s.slot.toNat → exec .put s = .next { s with sstat := .eof }) ∧
        (∀ off, off = (if s.slot = 0xFFFF#16 then s.store.size else 12 * s.slot.toNat) → off ≤ s.store.size →
          (s.storeMax.val < off + 12 → exec .put s = .refused .storeFull) ∧
          (off + 12 ≤ s.storeMax.val → s.store.mem.wf = true →
            ∃ t, exec .put s = .next t ∧ t = { s with store := t.store, sstat := .success } ∧
              WroteRecord s.store t.store off s.ser s.en))))

/-- INSERT (42_cardstore.md R180, R181): rejects a stored serial and a malformed store, else writes the record over the
first blank slot or at the end, and reports the slot. -/
def Obligations.InsertReusesOrAppends : Prop :=
  encode .insert = .command 0x2300#16 ∧
  ∀ s : State,
    (s.medium = .absent → exec .insert s = .next { s with sstat := .doesNotExist }) ∧
    (s.medium = .unopenable → exec .insert s = .next { s with sstat := .openFailure }) ∧
    (s.medium = .ok → ∀ n, NoMatchBelow s.store s.ser n →
      (∀ enabled, parseAt s.store (12 * n) = .record s.ser enabled →
        exec .insert s = .next { s with sstat := .alreadyExists }) ∧
      (∀ c, c ≠ .eof → parseAt s.store (12 * n) = .failure c → exec .insert s = .next { s with sstat := c }) ∧
      (parseAt s.store (12 * n) = .failure .eof →
        (s.ser.length ≠ 9 → exec .insert s = .next { s with sstat := .invalidRecord }) ∧
        (s.ser.length = 9 → Inv s →
          (∀ k enabled, NoMatchBelow s.store blankSerial k → parseAt s.store (12 * k) = .record blankSerial enabled →
            ∃ t, exec .insert s = .next t ∧
              t = { s with store := t.store, slot := BitVec.ofNat 16 k, sstat := .success } ∧
              WroteRecord s.store t.store (12 * k) s.ser s.en) ∧
          (NoMatchBelow s.store blankSerial n → s.store.size + 12 ≤ s.storeMax.val →
            ∃ t, exec .insert s = .next t ∧
              t = { s with store := t.store, slot := BitVec.ofNat 16 (s.store.size / 12), sstat := .success } ∧
              WroteRecord s.store t.store s.store.size s.ser s.en) ∧
          (NoMatchBelow s.store blankSerial n → s.storeMax.val < s.store.size + 12 →
            exec .insert s = .refused .storeFull))))

/-- ENUM (42_cardstore.md R164, R184): one visit for each record up to the first slot that is no record, and that slot's
code, with SUCCESS at the end of the data; there always is such a slot. -/
def Obligations.EnumVisitsEveryParsedRecord : Prop :=
  encode .enum = .command 0x2400#16 ∧
  (∀ st : Store, ∃ rs c, ParsesTo st rs ∧ parseAt st (12 * rs.length) = .failure c) ∧
  ∀ s : State,
    (s.medium = .absent → exec .enum s = .next { s with sstat := .doesNotExist }) ∧
    (s.medium = .unopenable → exec .enum s = .next { s with sstat := .openFailure }) ∧
    (s.medium = .ok → ∀ rs : List (Bytes × Bool), ParsesTo s.store rs →
      ∀ c, parseAt s.store (12 * rs.length) = .failure c →
        exec .enum s = .next { s with
          sstat := if c = .eof then .success else c,
          visits := s.visits ++ rs.mapIdx fun k r => ⟨r.1, k, r.2⟩ })

/-- DELETE (42_cardstore.md R187): SER and EN become the tombstone's even when the write then fails, and a write puts the
blank record's twelve bytes at the end or at 12 × SLOT. -/
def Obligations.DeleteWritesTombstone : Prop :=
  encode .delete = .command 0x2500#16 ∧
  ∀ (s : State) (blank : Bytes), blank = List.replicate 9 0x5A#8 →
    (s.medium = .absent → exec .delete s = .next { s with ser := blank, en := false, sstat := .doesNotExist }) ∧
    (s.medium = .unopenable → exec .delete s = .next { s with ser := blank, en := false, sstat := .openFailure }) ∧
    (s.medium = .ok →
      (s.slot ≠ 0xFFFF#16 → s.store.size < 12 * s.slot.toNat →
        exec .delete s = .next { s with ser := blank, en := false, sstat := .eof }) ∧
      (∀ off, off = (if s.slot = 0xFFFF#16 then s.store.size else 12 * s.slot.toNat) → off ≤ s.store.size →
        (s.storeMax.val < off + 12 → exec .delete s = .refused .storeFull) ∧
        (off + 12 ≤ s.storeMax.val → s.store.mem.wf = true →
          ∃ t, exec .delete s = .next t ∧
            t = { s with store := t.store, ser := blank, en := false, sstat := .success } ∧
            WroteRecord s.store t.store off blank false)))

/-- A record that INSERT stored is found by LOOKUP, at the slot INSERT reported and with its flag
(42_cardstore.md R182; 95_test_vectors.md SP4). -/
def Obligations.InsertedSerialIsLookedUp : Prop :=
  ∀ s t : State, Inv s → canonicalSerial s.ser = true → exec .insert s = .next t → t.sstat = .success →
    exec .lookup t = .next t ∧ t.ser = s.ser ∧ t.en = s.en

/-- A record that PUT stored at a slot is read back by GET (42_cardstore.md R170, R174). -/
def Obligations.PutRecordIsGotBack : Prop :=
  ∀ s t : State, s.store.mem.wf = true → canonicalSerial s.ser = true → s.slot ≠ 0xFFFF#16 →
    exec .put s = .next t → t.sstat = .success → exec .get t = .next t

/-- A store of canonical records stays one: PUT of a canonical serial and DELETE write the record at their own offset,
and INSERT of a canonical serial at the first blank slot, else at the end, which is the slot it reports; that record is
replaced or added, and no other moves (42_cardstore.md R174, R180, R187, R188; 10_state.md R24). INSERT has the bound of
the invariant as a premise, without which a slot number need not fit SLOT. -/
def Obligations.RecordsNeverShift : Prop :=
  ∀ (s t : State) (rs : List (Bytes × Bool)) (i : Instr) (r : Bytes × Bool) (k : Nat), HoldsRecords s.store rs →
    (i = .insert ∧ canonicalSerial s.ser = true ∧ r = (s.ser, s.en) ∧ s.store.size ≤ s.storeMax.val ∧
        k = rs.findIdx fun q => q.1 == List.replicate 9 0x5A#8) ∨
      ((i = .put ∧ canonicalSerial s.ser = true ∧ r = (s.ser, s.en) ∨
        i = .delete ∧ r = (List.replicate 9 0x5A#8, false)) ∧ 12 * k = putOffset s.store s.slot) →
    exec i s = .next t →
    (t.sstat ≠ .success ∧ t.store = s.store) ∨
    (t.sstat = .success ∧ k ≤ rs.length ∧ (i = .insert → t.slot.toNat = k) ∧
      HoldsRecords t.store (if k < rs.length then rs.set k r else rs ++ [r]))

/-- After a slot is tombstoned, inserting a serial that is not stored reuses the first blank slot, which is at or below
it, and the store does not grow (42_cardstore.md R182; 95_test_vectors.md SP5). -/
def Obligations.DeletedSlotIsReused : Prop :=
  ∀ (s t u : State) (rs : List (Bytes × Bool)) (blank : Bytes), HoldsRecords s.store rs →
    s.store.size ≤ s.storeMax.val → s.medium = .ok → s.slot.toNat < rs.length → exec .delete s = .next t →
    blank = List.replicate 9 0x5A#8 →
    u = { t with ser := u.ser, en := u.en } → canonicalSerial u.ser = true → u.ser ≠ blank →
    (∀ r ∈ rs, r.1 ≠ u.ser) →
    ∃ v, exec .insert u = .next v ∧ v.sstat = .success ∧ v.slot ≤ s.slot ∧
      v.slot.toNat = (rs.set s.slot.toNat (blank, false)).findIdx (fun q => q.1 == blank) ∧
      v.store.size = s.store.size

/-! ### The whole machine -/

/-- Every step keeps the invariant, from every state that has it (10_state.md R24, R32, R36; 20_memory.md R57). -/
def Obligations.EveryStepKeepsInv : Prop :=
  ∀ s t : State, Inv s → step s = .next t → Inv t

/-- The state after reset has the invariant. -/
def Obligations.ResetStateHasInv : Prop := Inv State.reset

/-- What the state after reset holds of 10_state.md R43; the launch values of store, medium and storeMax are the model's
(log entries 5, 7, 8). -/
def Obligations.ResetStateRegisters : Prop :=
  State.reset.len = 0#8 ∧ State.reset.full = false ∧ State.reset.bval = 0#2 ∧ State.reset.wstat.number = 0#4 ∧
  State.reset.fac = 0#8 ∧ State.reset.card = 0#16 ∧ State.reset.ser = [] ∧ State.reset.slot = 0#16 ∧
  State.reset.en = false ∧ State.reset.sstat.number = 0#4 ∧ State.reset.cerr = false ∧ State.reset.visits = []

/-- The reset input is one step that leaves the values of 10_state.md R43 and the store as it was
(70_reset_and_hazards.md R240, R241). -/
def Obligations.ResetInputClearsRegisters : Prop :=
  ∀ (s : State) (rest : List Input), s.inputs = .reset :: rest →
    ∃ t, step s = .next t ∧ t.inputs = rest ∧ t.len = 0#8 ∧ t.full = false ∧ t.bval = 0#2 ∧ t.wstat.number = 0#4 ∧
      t.fac = 0#8 ∧ t.card = 0#16 ∧ t.ser = [] ∧ t.slot = 0#16 ∧ t.en = false ∧ t.sstat.number = 0#4 ∧
      t.cerr = false ∧ t.store = s.store

/-- The frame of the reset input: the cells of buf stay (10_state.md R20, 92_eei_decisions.md D10), and by the model's
choice so do the outputs already given, STORE_MAX_BYTES and the medium (log entries 5, 7, 10). -/
def Obligations.ResetInputKeepsCellsAndOutputs : Prop :=
  ∀ (s : State) (rest : List Input), s.inputs = .reset :: rest →
    step s = .next { s with
      inputs := rest, len := 0#8, bval := 0#2, wstat := .success, fac := 0#8, card := 0#16, ser := [], slot := 0#16,
      en := false, sstat := .success, cerr := false }

/-- Which commands write which register, memory and output, and that no command writes the parameters and inputs
(10_state.md R30; 30_encoding.md R74). -/
def Obligations.OnlyTheirCommandsWriteRegisters : Prop :=
  ∀ (i : Instr) (s t : State), exec i s = .next t →
    (t.buf ≠ s.buf → ∃ d, i = .append d) ∧
    (t.len ≠ s.len → i = .clear ∨ ∃ d, i = .append d) ∧
    (t.appOks ≠ s.appOks → ∃ d, i = .append d) ∧
    (t.bval ≠ s.bval → i = .isfull ∨ ∃ p, i = .bitat p) ∧
    (t.wstat ≠ s.wstat ∨ t.fac ≠ s.fac ∨ t.card ≠ s.card → i = .decode ∨ ∃ c, i = .decodes c) ∧
    (t.cerr ≠ s.cerr → (i = .decode ∨ ∃ c, i = .decodes c) ∧ s.len ≠ 255#8) ∧
    (t.ser ≠ s.ser → (∃ c, i = .decodes c) ∨ i = .format ∨ i = .get ∨ i = .delete) ∧
    (t.slot ≠ s.slot → i = .lookup ∨ i = .insert) ∧
    (t.en ≠ s.en → i = .lookup ∨ i = .get ∨ i = .delete) ∧
    (t.sstat ≠ s.sstat → i = .lookup ∨ i = .get ∨ i = .put ∨ i = .insert ∨ i = .enum ∨ i = .delete) ∧
    (t.store ≠ s.store → i = .put ∨ i = .insert ∨ i = .delete) ∧
    (t.visits ≠ s.visits → i = .enum) ∧
    t.medium = s.medium ∧ t.storeMax = s.storeMax ∧ t.reads = s.reads ∧ t.inputs = s.inputs

/-- A store command that does not return SUCCESS has written SSTAT and nothing else, but for ENUM's visits of the
records before the failing one and DELETE's operands; a decode that does not has written WSTAT and nothing else; a command
that faults has written CERR and nothing else (60_exceptions.md R208). -/
def Obligations.FailingCommandsArePrecise : Prop :=
  ∀ s t : State,
    (∀ i, i = .lookup ∨ i = .get ∨ i = .put ∨ i = .insert → exec i s = .next t → t.sstat ≠ .success →
      t = { s with sstat := t.sstat }) ∧
    (exec .enum s = .next t → t.sstat ≠ .success →
      t = { s with sstat := t.sstat, visits := t.visits } ∧ (s.medium ≠ .ok → t.visits = s.visits) ∧
      (s.medium = .ok → ∃ rs, ParsesTo s.store rs ∧ parseAt s.store (12 * rs.length) = .failure t.sstat ∧
        t.visits = s.visits ++ rs.mapIdx fun k r => ⟨r.1, k, r.2⟩)) ∧
    (exec .delete s = .next t → t.sstat ≠ .success →
      t = { s with sstat := t.sstat, ser := List.replicate 9 0x5A#8, en := false }) ∧
    (∀ i, i = .decode ∨ (∃ cap, i = .decodes cap) → s.len = 255#8 → exec i s = .next t → t.wstat ≠ .success →
      t = { s with wstat := t.wstat }) ∧
    (∀ i, exec i s = .next t → t.cerr ≠ s.cerr → t = { s with cerr := true })

/-- Every instruction answers a next state from every state; one that may write the store, from every state with room
for a record (60_exceptions.md R200; 70_reset_and_hazards.md R255; 20_memory.md R57). -/
def Obligations.InstructionsCompleteWithRoom : Prop :=
  ∀ (i : Instr) (s : State),
    (i = .put ∨ i = .insert ∨ i = .delete → s.store.size + 12 ≤ s.storeMax.val) → ∃ t, exec i s = .next t

/-- CERR, once set, stays through every run without a reset (10_state.md R40; 60_exceptions.md R209). -/
def Obligations.CerrStaysUntilReset : Prop :=
  ∀ (n : Nat) (s t : State), Safety.run n s = .next t → s.cerr = true → Input.reset ∉ s.inputs.take n →
    t.cerr = true

/-- A good run executes no illegal command word and decodes no buffer that is not full: its last state would show CERR
(30_encoding.md R77; 60_exceptions.md R203). -/
def Obligations.GoodRunHasNoCommandFault : Prop :=
  ∀ (n : Nat) (s t : State) (w : BitVec 16) (rest : List Input), GoodRun (n + 1) s t →
    Input.reset ∉ s.inputs.take (n + 1) → s.inputs = .write .cmd (.word w.toNat) :: rest →
    LegalWord w ∧ ((∃ imm : BitVec 8, w = 0x13#8 ++ imm ∨ w = 0x14#8 ++ imm) → s.len = 255#8)

/-- The store never shrinks in a step, and is written only by a PUT, INSERT or DELETE that succeeds
(42_cardstore.md R188). -/
def Obligations.StoreOnlyGrowsBySuccess : Prop :=
  ∀ s t : State, step s = .next t →
    s.store.size ≤ t.store.size ∧
    (t.store ≠ s.store → t.sstat = .success ∧
      ∃ w rest, s.inputs = .write .cmd (.word w) :: rest ∧ (w = 0x2200 ∨ w = 0x2300 ∨ w = 0x2500))

/-- A step is refused exactly where the spec refuses it: a host access the port does not carry (10_state.md R30;
93_implementation_defined.md U16, U17; a value of the wrong kind is log entry 12), or the write of a PUT, DELETE or INSERT
that got past every test with a code and would end beyond STORE_MAX_BYTES (20_memory.md R57; 42_cardstore.md R174, R180,
R187). INSERT's offset goes through a slot number of 16 bits (log entry 23). -/
def Obligations.StepRefusesOnlyWhereSpecDoes : Prop :=
  ∀ (s : State) (r : Refusal), step s = .refused r ↔
    ∃ i rest, s.inputs = i :: rest ∧
      ((r = .readOnlyRegister ∧ ∃ reg v, i = .write reg v ∧ (reg = .bval ∨ reg = .wstat ∨ reg = .sstat ∨ reg = .cerr)) ∨
        (r = .portCannotCarry ∧ ∃ reg v, i = .write reg v ∧ hostWritable reg = true ∧ reg.accepts v = false) ∨
        (r = .writeOnlyRegister ∧ i = .read .cmd) ∨
        (r = .storeFull ∧ s.medium = .ok ∧ ∃ off, off ≤ s.store.size ∧ s.storeMax.val < off + 12 ∧
          ((i = .write .cmd (.word 0x2200) ∧ s.ser.length = 9 ∧ off = putOffset s.store s.slot) ∨
            (i = .write .cmd (.word 0x2500) ∧ off = putOffset s.store s.slot) ∨
            (i = .write .cmd (.word 0x2300) ∧ s.ser.length = 9 ∧
              ∃ n, NoMatchBelow s.store s.ser n ∧ parseAt s.store (12 * n) = .failure .eof ∧
                ((NoMatchBelow s.store blankSerial n ∧ off = s.store.size) ∨
                  ∃ k enabled, NoMatchBelow s.store blankSerial k ∧
                    parseAt s.store (12 * k) = .record blankSerial enabled ∧
                    off = putOffset s.store (BitVec.ofNat 16 k))))))

/-- Host writes of the five operand registers hold the value, and one of CMD executes the word; a write of a read-only
register and a value the register has no room for are refused (10_state.md R30, R31, R34 to R38;
93_implementation_defined.md U16, U17). That a value of the wrong kind has no room is the model's choice (log entry 12). -/
def Obligations.HostWritesOperandRegisters : Prop :=
  ∀ (s : State) (rest : List Input) (r : Reg) (v : PortValue), s.inputs = .write r v :: rest →
    (∀ n < 65536, r = .cmd → v = .word n →
      (∀ i, decode (.command (BitVec.ofNat 16 n)) = .ok i → step s = exec i { s with inputs := rest }) ∧
      (∀ e, decode (.command (BitVec.ofNat 16 n)) = .error e → step s = .next { s with inputs := rest, cerr := true })) ∧
    (∀ n < 256, r = .fac → v = .word n → step s = .next { s with inputs := rest, fac := BitVec.ofNat 8 n }) ∧
    (∀ n < 65536, r = .card → v = .word n → step s = .next { s with inputs := rest, card := BitVec.ofNat 16 n }) ∧
    (∀ bs, bs.length ≤ 15 → r = .ser → v = .text bs → step s = .next { s with inputs := rest, ser := bs }) ∧
    (∀ n < 65536, r = .slot → v = .word n → step s = .next { s with inputs := rest, slot := BitVec.ofNat 16 n }) ∧
    (∀ n < 2, r = .en → v = .word n → step s = .next { s with inputs := rest, en := decide (n = 1) }) ∧
    (r = .bval ∨ r = .wstat ∨ r = .sstat ∨ r = .cerr → step s = .refused .readOnlyRegister) ∧
    (hostWritable r = true → r.accepts v = false → step s = .refused .portCannotCarry)

/-- Host reads give the register's value on the port and change nothing else; a read of CMD is refused
(10_state.md R30; 20_memory.md R55). -/
def Obligations.HostReadsReturnRegisters : Prop :=
  ∀ (s : State) (rest : List Input) (r : Reg), s.inputs = .read r :: rest →
    (r = .cmd → step s = .refused .writeOnlyRegister) ∧
    ∀ v, (r = .bval ∧ v = .word s.bval.toNat) ∨ (r = .wstat ∧ v = .word s.wstat.number.toNat) ∨
        (r = .fac ∧ v = .word s.fac.toNat) ∨ (r = .card ∧ v = .word s.card.toNat) ∨ (r = .ser ∧ v = .text s.ser) ∨
        (r = .slot ∧ v = .word s.slot.toNat) ∨ (r = .en ∧ v = .word s.en.toNat) ∨
        (r = .sstat ∧ v = .word s.sstat.number.toNat) ∨ (r = .cerr ∧ v = .word s.cerr.toNat) →
      step s = .next { s with inputs := rest, reads := s.reads ++ [(r, v)] }

/-- An event and a store command or FORMAT may be taken in either order: the two agents share only the capture buffer
(20_memory.md R60; 60_exceptions.md R207, R216). -/
def Obligations.EventsCommuteWithStoreCommands : Prop :=
  ∀ (i : Instr) (level : Bool) (s t : State),
    i = .format ∨ i = .lookup ∨ i = .get ∨ i = .put ∨ i = .insert ∨ i = .enum ∨ i = .delete →
    exec i s = .next t →
    ∃ s' t', exec (.append level) s = .next s' ∧ exec i s' = .next t' ∧ exec (.append level) t = .next t'

/-- End to end: a full capture that is a frame, decoded with DECODES, is looked up at the first slot that holds its
serial, with that slot's flag (95_test_vectors.md SP7, SP8; 41_wiegand_decoder.md R142; 42_cardstore.md R167). -/
def Obligations.SwipedCardIsFoundInStore : Prop :=
  ∀ (s : State) (gs : List BitGroup) (lrc : BitGroup) (cap k : Nat) (enabled : Bool) (f : BitVec 8) (c : BitVec 16),
    s.len = 255#8 → IsFrame s.buf.toList gs lrc → 9 ≤ cap → s.medium = .ok →
    f = BitVec.ofNat 8 (payload gs / 2 ^ 17) → c = BitVec.ofNat 16 (payload gs / 2) →
    NoMatchBelow s.store (formatSerial f c) k → parseAt s.store (12 * k) = .record (formatSerial f c) enabled →
    ∃ t u, exec (.decodes cap) s = .next t ∧ exec .lookup t = .next u ∧
      u = { s with wstat := .success, fac := f, card := c, ser := formatSerial f c,
                   sstat := .success, slot := BitVec.ofNat 16 k, en := enabled }

/-! ### The numbers of the registers -/

/-- The ten numbers of the register space and what the host's access to each comes to: an access by number is that of the
register the number names (whose effects are HostWritesOperandRegisters and HostReadsReturnRegisters); number 0 executes a
command word and reads nothing, 1 to 9 read their register, and 1, 2, 8 and 9 take no write (10_state.md R30 to R40;
20_memory.md R50). That a number above 9 is no input of the machine is the model's reading (log entry 25). -/
def Obligations.RegisterNumbersNameRegisters : Prop :=
  (List.range 10).map Reg.ofNumber =
    [Reg.cmd, .bval, .wstat, .fac, .card, .ser, .slot, .en, .sstat, .cerr].map some ∧
  (∀ (no : Nat) (r : Reg), Reg.ofNumber no = some r ↔ r.number = no) ∧
  (∀ no : Nat, (readAccess no = none ↔ 10 ≤ no) ∧ ∀ v, (writeAccess no v = none ↔ 10 ≤ no)) ∧
  (∀ (no : Nat) (r : Reg), Reg.ofNumber no = some r →
    readAccess no = some (.read r) ∧ ∀ v, writeAccess no v = some (.write r v)) ∧
  (∀ w : BitVec 16, writeAccess 0 (.word w.toNat) = some (PortWord.input (.command w))) ∧
  ∀ s : State,
    (∀ i, readAccess 0 = some i → step (s.present i) = .refused .writeOnlyRegister) ∧
    (∀ no i, no ≠ 0 → readAccess no = some i → ∃ r v, r.number = no ∧ registerValue r s = some v ∧
      step (s.present i) = .next { s with reads := s.reads ++ [(r, v)] }) ∧
    (∀ no i v, no = 1 ∨ no = 2 ∨ no = 8 ∨ no = 9 → writeAccess no v = some i →
      step (s.present i) = .refused .readOnlyRegister)

/-! ### The platform -/

/-- The platform's change of the medium sets the condition that the store commands find, and changes nothing else
(10_state.md R25; 70_reset_and_hazards.md R244). That the condition is a field of State is the model's choice
(log entry 7). -/
def Obligations.MediumInputSetsCondition : Prop :=
  ∀ (s : State) (m : Medium) (rest : List Input), s.inputs = .medium m :: rest →
    step s = .next { s with inputs := rest, medium := m }
end

