-- ==== Sys2Proof/Laws/State.lean ====
section
/-! SUPPORT. One lemma per field per update of State, so that no later proof unfolds a record update. -/

namespace Sys2Proof.Machine.State

variable (s : State)

@[simp] theorem returnW_buf (c : WCode) : (s.returnW c).buf = s.buf := rfl
@[simp] theorem returnW_len (c : WCode) : (s.returnW c).len = s.len := rfl
@[simp] theorem returnW_bval (c : WCode) : (s.returnW c).bval = s.bval := rfl
@[simp] theorem returnW_wstat (c : WCode) : (s.returnW c).wstat = c := rfl
@[simp] theorem returnW_fac (c : WCode) : (s.returnW c).fac = s.fac := rfl
@[simp] theorem returnW_card (c : WCode) : (s.returnW c).card = s.card := rfl
@[simp] theorem returnW_ser (c : WCode) : (s.returnW c).ser = s.ser := rfl
@[simp] theorem returnW_slot (c : WCode) : (s.returnW c).slot = s.slot := rfl
@[simp] theorem returnW_en (c : WCode) : (s.returnW c).en = s.en := rfl
@[simp] theorem returnW_sstat (c : WCode) : (s.returnW c).sstat = s.sstat := rfl
@[simp] theorem returnW_cerr (c : WCode) : (s.returnW c).cerr = s.cerr := rfl
@[simp] theorem returnW_store (c : WCode) : (s.returnW c).store = s.store := rfl
@[simp] theorem returnW_storeMax (c : WCode) : (s.returnW c).storeMax = s.storeMax := rfl
@[simp] theorem returnW_medium (c : WCode) : (s.returnW c).medium = s.medium := rfl
@[simp] theorem returnW_visits (c : WCode) : (s.returnW c).visits = s.visits := rfl
@[simp] theorem returnW_appOks (c : WCode) : (s.returnW c).appOks = s.appOks := rfl
@[simp] theorem returnW_reads (c : WCode) : (s.returnW c).reads = s.reads := rfl
@[simp] theorem returnW_inputs (c : WCode) : (s.returnW c).inputs = s.inputs := rfl

@[simp] theorem returnS_buf (c : SCode) : (s.returnS c).buf = s.buf := rfl
@[simp] theorem returnS_len (c : SCode) : (s.returnS c).len = s.len := rfl
@[simp] theorem returnS_bval (c : SCode) : (s.returnS c).bval = s.bval := rfl
@[simp] theorem returnS_wstat (c : SCode) : (s.returnS c).wstat = s.wstat := rfl
@[simp] theorem returnS_fac (c : SCode) : (s.returnS c).fac = s.fac := rfl
@[simp] theorem returnS_card (c : SCode) : (s.returnS c).card = s.card := rfl
@[simp] theorem returnS_ser (c : SCode) : (s.returnS c).ser = s.ser := rfl
@[simp] theorem returnS_slot (c : SCode) : (s.returnS c).slot = s.slot := rfl
@[simp] theorem returnS_en (c : SCode) : (s.returnS c).en = s.en := rfl
@[simp] theorem returnS_sstat (c : SCode) : (s.returnS c).sstat = c := rfl
@[simp] theorem returnS_cerr (c : SCode) : (s.returnS c).cerr = s.cerr := rfl
@[simp] theorem returnS_store (c : SCode) : (s.returnS c).store = s.store := rfl
@[simp] theorem returnS_storeMax (c : SCode) : (s.returnS c).storeMax = s.storeMax := rfl
@[simp] theorem returnS_medium (c : SCode) : (s.returnS c).medium = s.medium := rfl
@[simp] theorem returnS_visits (c : SCode) : (s.returnS c).visits = s.visits := rfl
@[simp] theorem returnS_appOks (c : SCode) : (s.returnS c).appOks = s.appOks := rfl
@[simp] theorem returnS_reads (c : SCode) : (s.returnS c).reads = s.reads := rfl
@[simp] theorem returnS_inputs (c : SCode) : (s.returnS c).inputs = s.inputs := rfl

@[simp] theorem setPair_buf (f : BitVec 8) (c : BitVec 16) : (s.setPair f c).buf = s.buf := rfl
@[simp] theorem setPair_len (f : BitVec 8) (c : BitVec 16) : (s.setPair f c).len = s.len := rfl
@[simp] theorem setPair_bval (f : BitVec 8) (c : BitVec 16) : (s.setPair f c).bval = s.bval := rfl
@[simp] theorem setPair_wstat (f : BitVec 8) (c : BitVec 16) : (s.setPair f c).wstat = s.wstat := rfl
@[simp] theorem setPair_fac (f : BitVec 8) (c : BitVec 16) : (s.setPair f c).fac = f := rfl
@[simp] theorem setPair_card (f : BitVec 8) (c : BitVec 16) : (s.setPair f c).card = c := rfl
@[simp] theorem setPair_ser (f : BitVec 8) (c : BitVec 16) : (s.setPair f c).ser = s.ser := rfl
@[simp] theorem setPair_slot (f : BitVec 8) (c : BitVec 16) : (s.setPair f c).slot = s.slot := rfl
@[simp] theorem setPair_en (f : BitVec 8) (c : BitVec 16) : (s.setPair f c).en = s.en := rfl
@[simp] theorem setPair_sstat (f : BitVec 8) (c : BitVec 16) : (s.setPair f c).sstat = s.sstat := rfl
@[simp] theorem setPair_cerr (f : BitVec 8) (c : BitVec 16) : (s.setPair f c).cerr = s.cerr := rfl
@[simp] theorem setPair_store (f : BitVec 8) (c : BitVec 16) : (s.setPair f c).store = s.store := rfl
@[simp] theorem setPair_storeMax (f : BitVec 8) (c : BitVec 16) : (s.setPair f c).storeMax = s.storeMax := rfl
@[simp] theorem setPair_medium (f : BitVec 8) (c : BitVec 16) : (s.setPair f c).medium = s.medium := rfl
@[simp] theorem setPair_visits (f : BitVec 8) (c : BitVec 16) : (s.setPair f c).visits = s.visits := rfl
@[simp] theorem setPair_appOks (f : BitVec 8) (c : BitVec 16) : (s.setPair f c).appOks = s.appOks := rfl
@[simp] theorem setPair_reads (f : BitVec 8) (c : BitVec 16) : (s.setPair f c).reads = s.reads := rfl
@[simp] theorem setPair_inputs (f : BitVec 8) (c : BitVec 16) : (s.setPair f c).inputs = s.inputs := rfl

@[simp] theorem setRecord_buf (b : Bytes) (e : Bool) : (s.setRecord b e).buf = s.buf := rfl
@[simp] theorem setRecord_len (b : Bytes) (e : Bool) : (s.setRecord b e).len = s.len := rfl
@[simp] theorem setRecord_bval (b : Bytes) (e : Bool) : (s.setRecord b e).bval = s.bval := rfl
@[simp] theorem setRecord_wstat (b : Bytes) (e : Bool) : (s.setRecord b e).wstat = s.wstat := rfl
@[simp] theorem setRecord_fac (b : Bytes) (e : Bool) : (s.setRecord b e).fac = s.fac := rfl
@[simp] theorem setRecord_card (b : Bytes) (e : Bool) : (s.setRecord b e).card = s.card := rfl
@[simp] theorem setRecord_ser (b : Bytes) (e : Bool) : (s.setRecord b e).ser = b := rfl
@[simp] theorem setRecord_slot (b : Bytes) (e : Bool) : (s.setRecord b e).slot = s.slot := rfl
@[simp] theorem setRecord_en (b : Bytes) (e : Bool) : (s.setRecord b e).en = e := rfl
@[simp] theorem setRecord_sstat (b : Bytes) (e : Bool) : (s.setRecord b e).sstat = s.sstat := rfl
@[simp] theorem setRecord_cerr (b : Bytes) (e : Bool) : (s.setRecord b e).cerr = s.cerr := rfl
@[simp] theorem setRecord_store (b : Bytes) (e : Bool) : (s.setRecord b e).store = s.store := rfl
@[simp] theorem setRecord_storeMax (b : Bytes) (e : Bool) : (s.setRecord b e).storeMax = s.storeMax := rfl
@[simp] theorem setRecord_medium (b : Bytes) (e : Bool) : (s.setRecord b e).medium = s.medium := rfl
@[simp] theorem setRecord_visits (b : Bytes) (e : Bool) : (s.setRecord b e).visits = s.visits := rfl
@[simp] theorem setRecord_appOks (b : Bytes) (e : Bool) : (s.setRecord b e).appOks = s.appOks := rfl
@[simp] theorem setRecord_reads (b : Bytes) (e : Bool) : (s.setRecord b e).reads = s.reads := rfl
@[simp] theorem setRecord_inputs (b : Bytes) (e : Bool) : (s.setRecord b e).inputs = s.inputs := rfl

@[simp] theorem setStore_buf (st : Store) : (s.setStore st).buf = s.buf := rfl
@[simp] theorem setStore_len (st : Store) : (s.setStore st).len = s.len := rfl
@[simp] theorem setStore_bval (st : Store) : (s.setStore st).bval = s.bval := rfl
@[simp] theorem setStore_wstat (st : Store) : (s.setStore st).wstat = s.wstat := rfl
@[simp] theorem setStore_fac (st : Store) : (s.setStore st).fac = s.fac := rfl
@[simp] theorem setStore_card (st : Store) : (s.setStore st).card = s.card := rfl
@[simp] theorem setStore_ser (st : Store) : (s.setStore st).ser = s.ser := rfl
@[simp] theorem setStore_slot (st : Store) : (s.setStore st).slot = s.slot := rfl
@[simp] theorem setStore_en (st : Store) : (s.setStore st).en = s.en := rfl
@[simp] theorem setStore_sstat (st : Store) : (s.setStore st).sstat = s.sstat := rfl
@[simp] theorem setStore_cerr (st : Store) : (s.setStore st).cerr = s.cerr := rfl
@[simp] theorem setStore_store (st : Store) : (s.setStore st).store = st := rfl
@[simp] theorem setStore_storeMax (st : Store) : (s.setStore st).storeMax = s.storeMax := rfl
@[simp] theorem setStore_medium (st : Store) : (s.setStore st).medium = s.medium := rfl
@[simp] theorem setStore_visits (st : Store) : (s.setStore st).visits = s.visits := rfl
@[simp] theorem setStore_appOks (st : Store) : (s.setStore st).appOks = s.appOks := rfl
@[simp] theorem setStore_reads (st : Store) : (s.setStore st).reads = s.reads := rfl
@[simp] theorem setStore_inputs (st : Store) : (s.setStore st).inputs = s.inputs := rfl

@[simp] theorem emitVisits_buf (vs : List Visit) : (s.emitVisits vs).buf = s.buf := rfl
@[simp] theorem emitVisits_len (vs : List Visit) : (s.emitVisits vs).len = s.len := rfl
@[simp] theorem emitVisits_bval (vs : List Visit) : (s.emitVisits vs).bval = s.bval := rfl
@[simp] theorem emitVisits_wstat (vs : List Visit) : (s.emitVisits vs).wstat = s.wstat := rfl
@[simp] theorem emitVisits_fac (vs : List Visit) : (s.emitVisits vs).fac = s.fac := rfl
@[simp] theorem emitVisits_card (vs : List Visit) : (s.emitVisits vs).card = s.card := rfl
@[simp] theorem emitVisits_ser (vs : List Visit) : (s.emitVisits vs).ser = s.ser := rfl
@[simp] theorem emitVisits_slot (vs : List Visit) : (s.emitVisits vs).slot = s.slot := rfl
@[simp] theorem emitVisits_en (vs : List Visit) : (s.emitVisits vs).en = s.en := rfl
@[simp] theorem emitVisits_sstat (vs : List Visit) : (s.emitVisits vs).sstat = s.sstat := rfl
@[simp] theorem emitVisits_cerr (vs : List Visit) : (s.emitVisits vs).cerr = s.cerr := rfl
@[simp] theorem emitVisits_store (vs : List Visit) : (s.emitVisits vs).store = s.store := rfl
@[simp] theorem emitVisits_storeMax (vs : List Visit) : (s.emitVisits vs).storeMax = s.storeMax := rfl
@[simp] theorem emitVisits_medium (vs : List Visit) : (s.emitVisits vs).medium = s.medium := rfl
@[simp] theorem emitVisits_visits (vs : List Visit) : (s.emitVisits vs).visits = s.visits ++ vs := rfl
@[simp] theorem emitVisits_appOks (vs : List Visit) : (s.emitVisits vs).appOks = s.appOks := rfl
@[simp] theorem emitVisits_reads (vs : List Visit) : (s.emitVisits vs).reads = s.reads := rfl
@[simp] theorem emitVisits_inputs (vs : List Visit) : (s.emitVisits vs).inputs = s.inputs := rfl

@[simp] theorem driveAppOk_buf (ok : Bool) : (s.driveAppOk ok).buf = s.buf := rfl
@[simp] theorem driveAppOk_len (ok : Bool) : (s.driveAppOk ok).len = s.len := rfl
@[simp] theorem driveAppOk_bval (ok : Bool) : (s.driveAppOk ok).bval = s.bval := rfl
@[simp] theorem driveAppOk_wstat (ok : Bool) : (s.driveAppOk ok).wstat = s.wstat := rfl
@[simp] theorem driveAppOk_fac (ok : Bool) : (s.driveAppOk ok).fac = s.fac := rfl
@[simp] theorem driveAppOk_card (ok : Bool) : (s.driveAppOk ok).card = s.card := rfl
@[simp] theorem driveAppOk_ser (ok : Bool) : (s.driveAppOk ok).ser = s.ser := rfl
@[simp] theorem driveAppOk_slot (ok : Bool) : (s.driveAppOk ok).slot = s.slot := rfl
@[simp] theorem driveAppOk_en (ok : Bool) : (s.driveAppOk ok).en = s.en := rfl
@[simp] theorem driveAppOk_sstat (ok : Bool) : (s.driveAppOk ok).sstat = s.sstat := rfl
@[simp] theorem driveAppOk_cerr (ok : Bool) : (s.driveAppOk ok).cerr = s.cerr := rfl
@[simp] theorem driveAppOk_store (ok : Bool) : (s.driveAppOk ok).store = s.store := rfl
@[simp] theorem driveAppOk_storeMax (ok : Bool) : (s.driveAppOk ok).storeMax = s.storeMax := rfl
@[simp] theorem driveAppOk_medium (ok : Bool) : (s.driveAppOk ok).medium = s.medium := rfl
@[simp] theorem driveAppOk_visits (ok : Bool) : (s.driveAppOk ok).visits = s.visits := rfl
@[simp] theorem driveAppOk_appOks (ok : Bool) : (s.driveAppOk ok).appOks = s.appOks ++ [ok] := rfl
@[simp] theorem driveAppOk_reads (ok : Bool) : (s.driveAppOk ok).reads = s.reads := rfl
@[simp] theorem driveAppOk_inputs (ok : Bool) : (s.driveAppOk ok).inputs = s.inputs := rfl

@[simp] theorem faultCerr_buf : (s.faultCerr).buf = s.buf := rfl
@[simp] theorem faultCerr_len : (s.faultCerr).len = s.len := rfl
@[simp] theorem faultCerr_bval : (s.faultCerr).bval = s.bval := rfl
@[simp] theorem faultCerr_wstat : (s.faultCerr).wstat = s.wstat := rfl
@[simp] theorem faultCerr_fac : (s.faultCerr).fac = s.fac := rfl
@[simp] theorem faultCerr_card : (s.faultCerr).card = s.card := rfl
@[simp] theorem faultCerr_ser : (s.faultCerr).ser = s.ser := rfl
@[simp] theorem faultCerr_slot : (s.faultCerr).slot = s.slot := rfl
@[simp] theorem faultCerr_en : (s.faultCerr).en = s.en := rfl
@[simp] theorem faultCerr_sstat : (s.faultCerr).sstat = s.sstat := rfl
@[simp] theorem faultCerr_cerr : (s.faultCerr).cerr = true := rfl
@[simp] theorem faultCerr_store : (s.faultCerr).store = s.store := rfl
@[simp] theorem faultCerr_storeMax : (s.faultCerr).storeMax = s.storeMax := rfl
@[simp] theorem faultCerr_medium : (s.faultCerr).medium = s.medium := rfl
@[simp] theorem faultCerr_visits : (s.faultCerr).visits = s.visits := rfl
@[simp] theorem faultCerr_appOks : (s.faultCerr).appOks = s.appOks := rfl
@[simp] theorem faultCerr_reads : (s.faultCerr).reads = s.reads := rfl
@[simp] theorem faultCerr_inputs : (s.faultCerr).inputs = s.inputs := rfl

@[simp] theorem resetBlock_buf : (s.resetBlock).buf = s.buf := rfl
@[simp] theorem resetBlock_len : (s.resetBlock).len = 0#8 := rfl
@[simp] theorem resetBlock_bval : (s.resetBlock).bval = 0#2 := rfl
@[simp] theorem resetBlock_wstat : (s.resetBlock).wstat = .success := rfl
@[simp] theorem resetBlock_fac : (s.resetBlock).fac = 0#8 := rfl
@[simp] theorem resetBlock_card : (s.resetBlock).card = 0#16 := rfl
@[simp] theorem resetBlock_ser : (s.resetBlock).ser = [] := rfl
@[simp] theorem resetBlock_slot : (s.resetBlock).slot = 0#16 := rfl
@[simp] theorem resetBlock_en : (s.resetBlock).en = false := rfl
@[simp] theorem resetBlock_sstat : (s.resetBlock).sstat = .success := rfl
@[simp] theorem resetBlock_cerr : (s.resetBlock).cerr = false := rfl
@[simp] theorem resetBlock_store : (s.resetBlock).store = s.store := rfl
@[simp] theorem resetBlock_storeMax : (s.resetBlock).storeMax = s.storeMax := rfl
@[simp] theorem resetBlock_medium : (s.resetBlock).medium = s.medium := rfl
@[simp] theorem resetBlock_visits : (s.resetBlock).visits = s.visits := rfl
@[simp] theorem resetBlock_appOks : (s.resetBlock).appOks = s.appOks := rfl
@[simp] theorem resetBlock_reads : (s.resetBlock).reads = s.reads := rfl
@[simp] theorem resetBlock_inputs : (s.resetBlock).inputs = s.inputs := rfl

@[simp] theorem present_buf (i : Input) : (s.present i).buf = s.buf := rfl
@[simp] theorem present_len (i : Input) : (s.present i).len = s.len := rfl
@[simp] theorem present_bval (i : Input) : (s.present i).bval = s.bval := rfl
@[simp] theorem present_wstat (i : Input) : (s.present i).wstat = s.wstat := rfl
@[simp] theorem present_fac (i : Input) : (s.present i).fac = s.fac := rfl
@[simp] theorem present_card (i : Input) : (s.present i).card = s.card := rfl
@[simp] theorem present_ser (i : Input) : (s.present i).ser = s.ser := rfl
@[simp] theorem present_slot (i : Input) : (s.present i).slot = s.slot := rfl
@[simp] theorem present_en (i : Input) : (s.present i).en = s.en := rfl
@[simp] theorem present_sstat (i : Input) : (s.present i).sstat = s.sstat := rfl
@[simp] theorem present_cerr (i : Input) : (s.present i).cerr = s.cerr := rfl
@[simp] theorem present_store (i : Input) : (s.present i).store = s.store := rfl
@[simp] theorem present_storeMax (i : Input) : (s.present i).storeMax = s.storeMax := rfl
@[simp] theorem present_medium (i : Input) : (s.present i).medium = s.medium := rfl
@[simp] theorem present_visits (i : Input) : (s.present i).visits = s.visits := rfl
@[simp] theorem present_appOks (i : Input) : (s.present i).appOks = s.appOks := rfl
@[simp] theorem present_reads (i : Input) : (s.present i).reads = s.reads := rfl
@[simp] theorem present_inputs (i : Input) : (s.present i).inputs = i :: s.inputs := rfl

end Sys2Proof.Machine.State

namespace Sys2Proof.Machine

variable (s : State)

@[simp] theorem setCell_buf (i : Nat) (b : Bool) : (setCell s i b).buf = s.buf.setIfInBounds i b := rfl
@[simp] theorem setCell_len (i : Nat) (b : Bool) : (setCell s i b).len = s.len := rfl
@[simp] theorem setCell_bval (i : Nat) (b : Bool) : (setCell s i b).bval = s.bval := rfl
@[simp] theorem setCell_wstat (i : Nat) (b : Bool) : (setCell s i b).wstat = s.wstat := rfl
@[simp] theorem setCell_fac (i : Nat) (b : Bool) : (setCell s i b).fac = s.fac := rfl
@[simp] theorem setCell_card (i : Nat) (b : Bool) : (setCell s i b).card = s.card := rfl
@[simp] theorem setCell_ser (i : Nat) (b : Bool) : (setCell s i b).ser = s.ser := rfl
@[simp] theorem setCell_slot (i : Nat) (b : Bool) : (setCell s i b).slot = s.slot := rfl
@[simp] theorem setCell_en (i : Nat) (b : Bool) : (setCell s i b).en = s.en := rfl
@[simp] theorem setCell_sstat (i : Nat) (b : Bool) : (setCell s i b).sstat = s.sstat := rfl
@[simp] theorem setCell_cerr (i : Nat) (b : Bool) : (setCell s i b).cerr = s.cerr := rfl
@[simp] theorem setCell_store (i : Nat) (b : Bool) : (setCell s i b).store = s.store := rfl
@[simp] theorem setCell_storeMax (i : Nat) (b : Bool) : (setCell s i b).storeMax = s.storeMax := rfl
@[simp] theorem setCell_medium (i : Nat) (b : Bool) : (setCell s i b).medium = s.medium := rfl
@[simp] theorem setCell_visits (i : Nat) (b : Bool) : (setCell s i b).visits = s.visits := rfl
@[simp] theorem setCell_appOks (i : Nat) (b : Bool) : (setCell s i b).appOks = s.appOks := rfl
@[simp] theorem setCell_reads (i : Nat) (b : Bool) : (setCell s i b).reads = s.reads := rfl
@[simp] theorem setCell_inputs (i : Nat) (b : Bool) : (setCell s i b).inputs = s.inputs := rfl

@[simp] theorem store_write_size (st : Store) (off : Nat) (v : Bytes) :
    (st.write off v).size = max st.size (off + v.length) := rfl
@[simp] theorem store_write_mem (st : Store) (off : Nat) (v : Bytes) :
    (st.write off v).mem = st.mem.writeBytes off v := rfl

end Sys2Proof.Machine
end

