-- ==== Sys2Proof/Laws/Memory.lean ====
section
/-! SUPPORT. The laws of the store's bytes: read after write, the canonical form is kept, and equal contents are equal
data. -/

namespace Sys2Proof.Machine.Memory

theorem wf_cons (c : Host.Cell) (m : Memory) :
    wf (c :: m) = true ↔ c.2 ≠ unlisted ∧ (∀ d ∈ m, c.1 < d.1) ∧ wf m = true := by
  induction m generalizing c with
  | nil => obtain ⟨a, b⟩ := c; simp [wf]
  | cons d m ih =>
    obtain ⟨a, b⟩ := c
    obtain ⟨a', b'⟩ := d
    simp only [wf, Bool.and_eq_true, decide_eq_true_eq, ih, List.mem_cons, forall_eq_or_imp]
    constructor
    · rintro ⟨⟨hb, hlt⟩, hb', hm, hw⟩
      exact ⟨hb, ⟨hlt, fun d hd => hlt.trans (hm d hd)⟩, hb', hm, hw⟩
    · rintro ⟨hb, ⟨hlt, _⟩, hb', hm, hw⟩
      exact ⟨⟨hb, hlt⟩, hb', hm, hw⟩

theorem below_iff (n : Nat) (m : Memory) : below n m = true ↔ ∀ c ∈ m, c.1 < n := by
  simp [below, List.all_eq_true]

theorem readByte_of_absent {m : Memory} {a : Nat} (h : ∀ c ∈ m, c.1 ≠ a) : readByte m a = unlisted := by
  induction m with
  | nil => rfl
  | cons c m ih =>
    obtain ⟨k, b⟩ := c
    have hk : k ≠ a := h (k, b) (by simp)
    rw [readByte, if_neg hk]
    exact ih fun d hd => h d (by simp [hd])

theorem readByte_of_mem {m : Memory} (hw : wf m = true) {c : Host.Cell} (hc : c ∈ m) : readByte m c.1 = c.2 := by
  induction m with
  | nil => simp at hc
  | cons d m ih =>
    obtain ⟨k, b⟩ := d
    obtain ⟨_, hlt, hw'⟩ := (wf_cons _ _).1 hw
    rcases List.mem_cons.1 hc with rfl | hc'
    · simp [readByte]
    · have : k ≠ c.1 := (hlt c hc').ne
      rw [readByte, if_neg this]
      exact ih hw' hc'

theorem readByte_consByte {a : Nat} {v : Byte} {m : Memory} (h : ∀ c ∈ m, a < c.1) (x : Nat) :
    readByte (consByte a v m) x = if a = x then v else readByte m x := by
  unfold consByte
  split
  · next hv =>
    split
    · next hax =>
      subst hax
      rw [hv, readByte_of_absent fun c hc => (h c hc).ne']
    · rfl
  · rfl

/-- Read after write, at the same and at every other offset. -/
theorem readByte_writeByte {m : Memory} (hw : wf m = true) (a : Nat) (v : Byte) (x : Nat) :
    readByte (writeByte m a v) x = if a = x then v else readByte m x := by
  induction m with
  | nil => exact readByte_consByte (by simp) x
  | cons c m ih =>
    obtain ⟨k, b⟩ := c
    obtain ⟨_, hlt, hw'⟩ := (wf_cons _ _).1 hw
    rw [writeByte]
    split
    · next hak =>
      refine readByte_consByte (fun d hd => ?_) x
      rcases List.mem_cons.1 hd with rfl | hd'
      · exact hak
      · exact hak.trans (hlt d hd')
    · split
      · next hak =>
        subst hak
        rw [readByte_consByte hlt]
        simp only [readByte]
        split <;> rfl
      · next hne =>
        simp only [readByte, ih hw']
        by_cases hkx : k = x
        · have : a ≠ x := fun h => hne (h.trans hkx.symm)
          simp [hkx, this]
        · simp [hkx]

theorem mem_consByte {a : Nat} {v : Byte} {m : Memory} {c : Host.Cell} (h : c ∈ consByte a v m) : c = (a, v) ∨ c ∈ m := by
  unfold consByte at h
  split at h
  · exact .inr h
  · exact List.mem_cons.1 h

theorem mem_writeByte {m : Memory} {a : Nat} {v : Byte} {c : Host.Cell} (h : c ∈ writeByte m a v) :
    c = (a, v) ∨ c ∈ m := by
  induction m with
  | nil => exact mem_consByte h
  | cons d m ih =>
    obtain ⟨k, b⟩ := d
    rw [writeByte] at h
    split at h
    · exact mem_consByte h
    · split at h
      · rcases mem_consByte h with h | h
        · exact .inl h
        · exact .inr (List.mem_cons_of_mem _ h)
      · rcases List.mem_cons.1 h with h | h
        · exact .inr (by simp [h])
        · rcases ih h with h | h
          · exact .inl h
          · exact .inr (List.mem_cons_of_mem _ h)

theorem wf_consByte {a : Nat} {v : Byte} {m : Memory} (hw : wf m = true) (h : ∀ c ∈ m, a < c.1) :
    wf (consByte a v m) = true := by
  unfold consByte
  split
  · exact hw
  · next hv => exact (wf_cons _ _).2 ⟨hv, h, hw⟩

/-- A write keeps the canonical form. -/
theorem wf_writeByte {m : Memory} (hw : wf m = true) (a : Nat) (v : Byte) : wf (writeByte m a v) = true := by
  induction m with
  | nil => exact wf_consByte hw (by simp)
  | cons c m ih =>
    obtain ⟨k, b⟩ := c
    obtain ⟨hb, hlt, hw'⟩ := (wf_cons _ _).1 hw
    rw [writeByte]
    split
    · next hak =>
      refine wf_consByte hw fun d hd => ?_
      rcases List.mem_cons.1 hd with rfl | hd'
      · exact hak
      · exact hak.trans (hlt d hd')
    · next hnlt =>
      split
      · next hak => exact wf_consByte hw' (hak ▸ hlt)
      · next hne =>
        refine (wf_cons _ _).2 ⟨hb, fun d hd => ?_, ih hw'⟩
        rcases mem_writeByte hd with rfl | hd'
        · exact Nat.lt_of_le_of_ne (Nat.le_of_not_lt hnlt) fun h => hne h.symm
        · exact hlt d hd'

theorem below_writeByte {m : Memory} {n a : Nat} (hm : below n m = true) (ha : a < n) (v : Byte) :
    below n (writeByte m a v) = true := by
  rw [below_iff] at *
  intro c hc
  rcases mem_writeByte hc with rfl | hc
  · exact ha
  · exact hm c hc

theorem below_mono {m : Memory} {n k : Nat} (hm : below n m = true) (h : n ≤ k) : below k m = true := by
  rw [below_iff] at *
  exact fun c hc => (hm c hc).trans_le h

/-- Equal memories are equal data. -/
theorem ext_readByte {m m' : Memory} (hw : wf m = true) (hw' : wf m' = true)
    (h : ∀ a, readByte m a = readByte m' a) : m = m' := by
  have key : ∀ {m m' : Memory}, wf m = true → wf m' = true → (∀ a, readByte m a = readByte m' a) →
      ∀ c ∈ m, c ∈ m' := by
    intro m m' hw hw' h c hc
    have hne : c.2 ≠ unlisted := by
      clear h
      induction m with
      | nil => simp at hc
      | cons d m ih =>
        obtain ⟨hd, _, hwm⟩ := (wf_cons _ _).1 hw
        rcases List.mem_cons.1 hc with rfl | hc
        · exact hd
        · exact ih hwm hc
    by_contra hno
    have hread : readByte m' c.1 = c.2 := by rw [← h, readByte_of_mem hw hc]
    by_cases habs : ∀ d ∈ m', d.1 ≠ c.1
    · exact hne (hread ▸ readByte_of_absent habs)
    · push Not at habs
      obtain ⟨d, hd, hdc⟩ := habs
      have : d.2 = c.2 := by rw [← readByte_of_mem hw' hd, hdc, hread]
      exact hno (Prod.ext hdc this ▸ hd)
  have sorted : ∀ {m : Memory}, wf m = true → m.Pairwise fun c d => c.1 < d.1 := by
    intro m hw
    induction m with
    | nil => exact .nil
    | cons c m ih =>
      obtain ⟨_, hlt, hwm⟩ := (wf_cons _ _).1 hw
      exact .cons hlt (ih hwm)
  have nodup : ∀ {m : Memory}, wf m = true → m.Nodup := fun hw =>
    (sorted hw).imp fun hlt heq => hlt.ne (congrArg Prod.fst heq)
  refine List.Perm.eq_of_pairwise ?_ (sorted hw) (sorted hw')
    ((List.perm_ext_iff_of_nodup (nodup hw) (nodup hw')).2 fun c =>
      ⟨key hw hw' h c, key hw' hw (fun a => (h a).symm) c⟩)
  intro a b _ _ hab hba
  exact absurd (hab.trans hba) (lt_irrefl _)

/-! ### Byte strings -/

theorem wf_writeBytes {m : Memory} (hw : wf m = true) (off : Nat) (bs : Bytes) : wf (writeBytes m off bs) = true := by
  induction bs generalizing m off with
  | nil => exact hw
  | cons b bs ih => exact ih (wf_writeByte hw off b) (off + 1)

theorem below_writeBytes {m : Memory} {n off : Nat} {bs : Bytes} (hm : below n m = true) (h : off + bs.length ≤ n) :
    below n (writeBytes m off bs) = true := by
  induction bs generalizing m off with
  | nil => exact hm
  | cons b bs ih =>
    rw [List.length_cons] at h
    exact ih (below_writeByte hm (by omega) b) (by omega)

/-- Reading one byte after a byte string was written. -/
theorem readByte_writeBytes {m : Memory} (hw : wf m = true) (off : Nat) (bs : Bytes) (x : Nat) :
    readByte (writeBytes m off bs) x =
      if off ≤ x ∧ x < off + bs.length then bs.getD (x - off) unlisted else readByte m x := by
  induction bs generalizing m off with
  | nil => simp [writeBytes]
  | cons b bs ih =>
    rw [writeBytes, ih (wf_writeByte hw off b), readByte_writeByte hw, List.length_cons]
    by_cases h1 : off + 1 ≤ x ∧ x < off + 1 + bs.length
    · rw [if_pos h1, if_pos (by omega), show x - off = (x - (off + 1)) + 1 by omega, List.getD_cons_succ]
    · rw [if_neg h1]
      by_cases h2 : off = x
      · subst h2
        rw [if_pos rfl, if_pos (by omega)]
        simp
      · rw [if_neg h2, if_neg (by omega)]

@[simp] theorem length_readBytes (m : Memory) (off n : Nat) : (readBytes m off n).length = n := by
  induction n generalizing off with
  | zero => rfl
  | succ n ih => simp [readBytes, ih]

theorem getElem_readBytes (m : Memory) (off n i : Nat) (h : i < (readBytes m off n).length) :
    (readBytes m off n)[i] = readByte m (off + i) := by
  induction n generalizing off i with
  | zero => simp at h
  | succ n ih =>
    cases i with
    | zero => rfl
    | succ i =>
      simp only [readBytes, List.getElem_cons_succ]
      rw [ih]
      congr 1
      omega

theorem readBytes_congr {m m' : Memory} {off n : Nat} (h : ∀ a, off ≤ a → a < off + n → readByte m a = readByte m' a) :
    readBytes m off n = readBytes m' off n := by
  refine List.ext_getElem (by simp) fun i h1 h2 => ?_
  rw [getElem_readBytes, getElem_readBytes]
  rw [length_readBytes] at h1
  exact h _ (by omega) (by omega)

/-- Reading back the string that was just written. -/
theorem readBytes_writeBytes_same {m : Memory} (hw : wf m = true) (off : Nat) (bs : Bytes) :
    readBytes (writeBytes m off bs) off bs.length = bs := by
  refine List.ext_getElem (by simp) fun i h1 h2 => ?_
  rw [getElem_readBytes, readByte_writeBytes hw, if_pos (by omega), Nat.add_sub_cancel_left]
  exact List.getD_eq_getElem _ _ h2

/-- A write leaves every byte string beside it alone. -/
theorem readBytes_writeBytes_disjoint {m : Memory} (hw : wf m = true) {off : Nat} {bs : Bytes} {off' n : Nat}
    (h : off' + n ≤ off ∨ off + bs.length ≤ off') :
    readBytes (writeBytes m off bs) off' n = readBytes m off' n :=
  readBytes_congr fun a h1 h2 => by rw [readByte_writeBytes hw, if_neg (by omega)]

end Sys2Proof.Machine.Memory
end

