-- ==== Sys2Proof/Laws/CardStore.lean ====
section
/-! SUPPORT. What reading a line, parsing a record, the scans and the write of a record can do. -/

namespace Sys2Proof.Machine

open Sys2Proof.Safety (NoMatchBelow)

/-! ### Lines -/

theorem length_cutLine_le (bs : Bytes) : (cutLine bs).length ≤ bs.length := by
  induction bs with
  | nil => simp [cutLine]
  | cons b bs ih =>
    rw [cutLine]
    split
    · simp
    · simpa using ih

theorem cutLine_eq_self {bs : Bytes} (h : Config.newline ∉ bs.dropLast) : cutLine bs = bs := by
  induction bs with
  | nil => rfl
  | cons b bs ih =>
    cases bs with
    | nil => simp [cutLine]
    | cons c cs =>
      rw [List.dropLast_cons_cons, List.mem_cons, not_or] at h
      rw [cutLine, if_neg (fun hb => h.1 hb.symm), ih h.2]

theorem cutLine_short {bs : Bytes} (h : Config.newline ∈ bs.dropLast) : (cutLine bs).length < bs.length := by
  induction bs with
  | nil => simp at h
  | cons b bs ih =>
    cases bs with
    | nil => simp at h
    | cons c cs =>
      rw [List.dropLast_cons_cons, List.mem_cons] at h
      rw [cutLine]
      split
      · simp
      · next hb =>
        have := ih (h.resolve_left fun hb' => hb hb'.symm)
        simpa using this

theorem cutLine_ne_nil {bs : Bytes} (h : bs ≠ []) : cutLine bs ≠ [] := by
  cases bs with
  | nil => exact absurd rfl h
  | cons b bs =>
    rw [cutLine]
    split <;> simp

/-- Past the end there is no line. -/
theorem readLine_past {st : Store} {off : Nat} (h : st.size ≤ off) : readLine st off = [] := by
  rw [readLine, if_pos h]

/-- Before the end a line is cut from the bytes that are there. -/
theorem readLine_inside {st : Store} {off : Nat} (h : off < st.size) :
    readLine st off = cutLine (st.mem.readBytes off (min Config.recordLen (st.size - off))) := by
  rw [readLine, if_neg (by omega)]

theorem length_readLine_le (st : Store) (off : Nat) :
    (readLine st off).length ≤ min Config.recordLen (st.size - off) := by
  by_cases h : off < st.size
  · rw [readLine_inside h]
    simpa using length_cutLine_le (st.mem.readBytes off (min Config.recordLen (st.size - off)))
  · simp [readLine_past (by omega : st.size ≤ off)]

theorem readLine_ne_nil {st : Store} {off : Nat} (h : off < st.size) : readLine st off ≠ [] := by
  rw [readLine_inside h]
  refine cutLine_ne_nil fun hnil => ?_
  have := congrArg List.length hnil
  simp at this
  omega

/-- Where no newline stands before the last byte of a slot, its line is the whole slot. -/
theorem readLine_whole {st : Store} {off : Nat} (h : off + Config.recordLen ≤ st.size)
    (hnl : Config.newline ∉ (st.mem.readBytes off Config.recordLen).dropLast) :
    readLine st off = st.mem.readBytes off Config.recordLen := by
  simp only [Config.recordLen] at *
  rw [readLine_inside (by omega), Config.recordLen, min_eq_left (by omega), cutLine_eq_self hnl]

/-! ### Tokens -/

theorem splitComma_append {left right : Bytes} (h : Config.comma ∉ left) :
    splitComma (left ++ Config.comma :: right) = some (left, right) := by
  induction left with
  | nil => simp [splitComma]
  | cons b left ih =>
    rw [List.mem_cons, not_or] at h
    rw [List.cons_append, splitComma, if_neg (fun hb => h.1 hb.symm), ih h.2]
    rfl

theorem splitComma_eq_none {body : Bytes} : splitComma body = none ↔ Config.comma ∉ body := by
  induction body with
  | nil => simp [splitComma]
  | cons b bs ih =>
    rw [splitComma, List.mem_cons, not_or]
    split
    · next h => simp [h]
    · next h => simp [ih, Ne.symm h]

theorem splitComma_eq_some {body left right : Bytes} (h : splitComma body = some (left, right)) :
    body = left ++ Config.comma :: right ∧ Config.comma ∉ left := by
  induction body generalizing left right with
  | nil => simp [splitComma] at h
  | cons b bs ih =>
    rw [splitComma] at h
    split at h
    · next hb =>
      obtain ⟨rfl, rfl⟩ : [] = left ∧ bs = right := by simpa using h
      simp [hb]
    · next hb =>
      cases hs : splitComma bs with
      | none => simp [hs] at h
      | some t =>
        obtain ⟨l, r⟩ := t
        simp only [hs, Option.map_some, Option.some.injEq, Prod.mk.injEq] at h
        obtain ⟨rfl, rfl⟩ := h
        obtain ⟨hbs, hl⟩ := ih hs
        exact ⟨by simp [hbs], by simp [hl, Ne.symm hb]⟩

theorem trimLeft_eq_self {t : Bytes} (h : t.head? ≠ some Config.space) : trimLeft t = t := by
  cases t with
  | nil => rfl
  | cons b bs => rw [trimLeft, if_neg (fun hb => h (by simp [hb]))]

/-- A string without outer spaces is left alone. -/
theorem trim_eq_self {t : Bytes} (h : t.head? ≠ some Config.space) (h' : t.getLast? ≠ some Config.space) :
    trim t = t := by
  rw [trim, trimLeft_eq_self h, trimLeft_eq_self (by simpa using h'), List.reverse_reverse]

theorem length_trimLeft_le (t : Bytes) : (trimLeft t).length ≤ t.length := by
  induction t with
  | nil => simp [trimLeft]
  | cons b bs ih =>
    rw [trimLeft]
    split
    · exact ih.trans (by simp)
    · exact le_rfl

theorem length_trim_le (t : Bytes) : (trim t).length ≤ t.length := by
  rw [trim, List.length_reverse]
  refine (length_trimLeft_le _).trans ?_
  rw [List.length_reverse]
  exact length_trimLeft_le t

/-! ### Parsing -/

/-- A record comes from a whole line, and its serial has at most 9 bytes (42_cardstore.md R163). -/
theorem parseLine_record {ln serial : Bytes} {enabled : Bool} (h : parseLine ln = .record serial enabled) :
    Config.recordLen ≤ ln.length ∧ serial.length ≤ Config.serialLen := by
  unfold parseLine at h
  split at h
  · simp at h
  split at h
  · simp at h
  split at h
  · simp at h
  next hlen _ =>
  refine ⟨Nat.le_of_not_lt hlen, ?_⟩
  unfold parseBody at h
  split at h
  · simp at h
  · simp at h
  · simp at h
  next left flag tail _ hs =>
  simp only [ParseResult.record.injEq] at h
  have hsplit := congrArg List.length (splitComma_eq_some hs).1
  have := length_trim_le left
  rw [← h.1]
  simp only [List.length_take, List.length_append, List.length_cons] at hsplit
  simp only [Config.serialLen]
  omega

theorem parseAt_record {st : Store} {off : Nat} {serial : Bytes} {enabled : Bool}
    (h : parseAt st off = .record serial enabled) :
    off + Config.recordLen ≤ st.size ∧ serial.length ≤ Config.serialLen := by
  obtain ⟨h1, h2⟩ := parseLine_record h
  have := length_readLine_le st off
  refine ⟨?_, h2⟩
  simp only [Config.recordLen] at *
  omega

/-- No bytes at the offset, and only that, is EOF (42_cardstore.md R162). -/
theorem parseAt_eq_eof {st : Store} {off : Nat} : parseAt st off = .failure .eof ↔ st.size ≤ off := by
  constructor
  · intro h
    by_contra hlt
    have hne := readLine_ne_nil (st := st) (off := off) (by omega)
    rw [parseAt, parseLine, if_neg (by simpa using hne)] at h
    split at h
    · simp at h
    split at h
    · simp at h
    unfold parseBody at h
    split at h <;> simp at h
  · intro h
    simp [parseAt, readLine_past h, parseLine]

/-- A parse never answers with a code that is not one of the four of 42_cardstore.md R162. -/
theorem parseAt_codes {st : Store} {off : Nat} {c : SCode} (h : parseAt st off = .failure c) :
    c = .eof ∨ c = .recordTooShort ∨ c = .recordTooLong ∨ c = .invalidRecord := by
  unfold parseAt parseLine at h
  split at h
  · simp_all
  split at h
  · simp_all
  split at h
  · simp_all
  unfold parseBody at h
  split at h <;> simp_all

/-! ### Scans -/

/-- The loop of Scan, one pass (42_cardstore.md R165). -/
theorem scanFrom_succ (st : Store) (key : Bytes) (n k : Nat) :
    scanFrom st key (n + 1) k =
      match parseAt st (Config.recordLen * k) with
      | .failure .eof => .failure .recordNotFound
      | .failure c => .failure c
      | .record serial enabled => if serial = key then .found serial k enabled else scanFrom st key n (k + 1) := rfl

/-- Passes beyond the end of the store change nothing: the number of passes is only what makes the loop end. -/
theorem scanFrom_passes {st : Store} (key : Bytes) {n n' k : Nat}
    (h : st.size < Config.recordLen * (k + n)) (h' : st.size < Config.recordLen * (k + n')) :
    scanFrom st key n k = scanFrom st key n' k := by
  induction n generalizing n' k with
  | zero =>
    cases n' with
    | zero => rfl
    | succ n' =>
      have : parseAt st (Config.recordLen * k) = .failure .eof := parseAt_eq_eof.2 (by simp only [Config.recordLen] at *; omega)
      rw [scanFrom_succ, this]
      rfl
  | succ n ih =>
    cases n' with
    | zero =>
      have : parseAt st (Config.recordLen * k) = .failure .eof := parseAt_eq_eof.2 (by simp only [Config.recordLen] at *; omega)
      rw [scanFrom_succ, this]
      rfl
    | succ n' =>
      rw [scanFrom_succ, scanFrom_succ]
      have := @ih n' (k + 1) (by simp only [Config.recordLen] at *; omega) (by simp only [Config.recordLen] at *; omega)
      split <;> try rfl
      rw [this]

theorem size_lt_scanPasses (st : Store) : st.size < Config.recordLen * scanPasses st := by
  simp only [scanPasses, Config.recordLen]
  omega

/-- A scan gets past every slot that parses to another serial. -/
theorem scanFrom_skip {st : Store} {key : Bytes} {k : Nat} (h : NoMatchBelow st key k) (n : Nat) :
    scanFrom st key (k + n) 0 = scanFrom st key n k := by
  induction k generalizing n with
  | zero => simp
  | succ k ih =>
    have hk := ih (fun j hj => h j (by omega)) (n + 1)
    obtain ⟨serial, enabled, hp, hne⟩ := h k (by omega)
    rw [show k + 1 + n = k + (n + 1) by omega, hk, scanFrom_succ, hp]
    simp [hne]

/-- What the search answers is decided by the first slot that does not parse to another serial
(42_cardstore.md R165, R166). -/
theorem scan_skip {st : Store} {key : Bytes} {k : Nat} (h : NoMatchBelow st key k) :
    scan st key = scanFrom st key 1 k ∨ ∃ serial enabled,
      parseAt st (Config.recordLen * k) = .record serial enabled ∧ serial ≠ key := by
  have hsz := size_lt_scanPasses st
  have : scan st key = scanFrom st key (k + scanPasses st) 0 :=
    scanFrom_passes key (by simpa using hsz) (by simp only [Config.recordLen] at *; omega)
  rw [this, scanFrom_skip h]
  cases hp : parseAt st (Config.recordLen * k) with
  | failure c =>
    left
    obtain ⟨n, hn⟩ : ∃ n, scanPasses st = n + 1 := ⟨_, rfl⟩
    rw [hn, scanFrom_succ, scanFrom_succ, hp]
    cases c <;> rfl
  | record serial enabled =>
    by_cases hk : serial = key
    · left
      obtain ⟨n, hn⟩ : ∃ n, scanPasses st = n + 1 := ⟨_, rfl⟩
      rw [hn, scanFrom_succ, scanFrom_succ, hp]
      simp [hk]
    · exact .inr ⟨serial, enabled, rfl, hk⟩

/-- What a finished scan says of the store. -/
theorem scanFrom_found {st : Store} {key serial : Bytes} {n k m : Nat} {enabled : Bool}
    (h : scanFrom st key n k = .found serial m enabled) :
    serial = key ∧ k ≤ m ∧ parseAt st (Config.recordLen * m) = .record key enabled ∧
      ∀ j, k ≤ j → j < m → ∃ s' e', parseAt st (Config.recordLen * j) = .record s' e' ∧ s' ≠ key := by
  induction n generalizing k with
  | zero => simp [scanFrom] at h
  | succ n ih =>
    rw [scanFrom_succ] at h
    split at h
    · simp at h
    · simp at h
    next s' e' hp =>
    split at h
    · next hk =>
      simp only [ScanResult.found.injEq] at h
      obtain ⟨rfl, rfl, rfl⟩ := h
      exact ⟨hk, le_rfl, hk ▸ hp, fun j h1 h2 => absurd h1 (by omega)⟩
    · next hk =>
      obtain ⟨h1, h2, h3, h4⟩ := ih h
      refine ⟨h1, by omega, h3, fun j hj hjm => ?_⟩
      rcases Nat.eq_or_lt_of_le hj with rfl | hj
      · exact ⟨s', e', hp, hk⟩
      · exact h4 j hj hjm

theorem scanFrom_failure {st : Store} {key : Bytes} {n k : Nat} {c : SCode}
    (h : scanFrom st key n k = .failure c) (hn : st.size < Config.recordLen * (k + n)) :
    ∃ m, k ≤ m ∧ (∀ j, k ≤ j → j < m → ∃ s' e', parseAt st (Config.recordLen * j) = .record s' e' ∧ s' ≠ key) ∧
      ((parseAt st (Config.recordLen * m) = .failure .eof ∧ c = .recordNotFound) ∨
        (parseAt st (Config.recordLen * m) = .failure c ∧ c ≠ .eof)) := by
  induction n generalizing k with
  | zero =>
    simp only [scanFrom, ScanResult.failure.injEq] at h
    exact ⟨k, le_rfl, fun j h1 h2 => absurd h1 (by omega),
      .inl ⟨parseAt_eq_eof.2 (by simp only [Config.recordLen] at *; omega), h.symm⟩⟩
  | succ n ih =>
    rw [scanFrom_succ] at h
    split at h
    · next hp =>
      simp only [ScanResult.failure.injEq] at h
      exact ⟨k, le_rfl, fun j h1 h2 => absurd h1 (by omega), .inl ⟨hp, h.symm⟩⟩
    · next c' hne hp =>
      simp only [ScanResult.failure.injEq] at h
      subst h
      exact ⟨k, le_rfl, fun j h1 h2 => absurd h1 (by omega), .inr ⟨hp, fun hc => hne hc⟩⟩
    next s' e' hp =>
    split at h
    · simp at h
    next hk =>
    obtain ⟨m, h1, h2, h3⟩ := ih h (by simp only [Config.recordLen] at *; omega)
    refine ⟨m, by omega, fun j hj hjm => ?_, h3⟩
    rcases Nat.eq_or_lt_of_le hj with rfl | hj
    · exact ⟨s', e', hp, hk⟩
    · exact h2 j hj hjm

theorem scan_found {st : Store} {key serial : Bytes} {m : Nat} {enabled : Bool}
    (h : scan st key = .found serial m enabled) :
    serial = key ∧ parseAt st (Config.recordLen * m) = .record key enabled ∧ NoMatchBelow st key m := by
  obtain ⟨h1, _, h3, h4⟩ := scanFrom_found h
  exact ⟨h1, h3, fun j hj => h4 j (by omega) hj⟩

theorem scan_failure {st : Store} {key : Bytes} {c : SCode} (h : scan st key = .failure c) :
    ∃ m, NoMatchBelow st key m ∧
      ((parseAt st (Config.recordLen * m) = .failure .eof ∧ c = .recordNotFound) ∨
        (parseAt st (Config.recordLen * m) = .failure c ∧ c ≠ .eof)) := by
  obtain ⟨m, _, h2, h3⟩ := scanFrom_failure h (by simpa using size_lt_scanPasses st)
  exact ⟨m, fun j hj => h2 j (by omega) hj, h3⟩

/-! ### The write -/

@[simp] theorem length_encodeRecord (serial : Bytes) (enabled : Bool) :
    (encodeRecord serial enabled).length = serial.length + 3 := by
  simp [encodeRecord]

@[simp] theorem length_blankSerial : blankSerial.length = Config.serialLen := by
  simp [blankSerial]

@[simp] theorem length_formatSerial (f : BitVec 8) (c : BitVec 16) : (formatSerial f c).length = Config.serialLen := rfl

/-- What `putBySlot` can do, and when (42_cardstore.md R174; 20_memory.md R57). -/
theorem putBySlot_written {m : Medium} {mx : Nat} {st st' : Store} {slot : BitVec 16} {serial : Bytes} {enabled : Bool}
    (h : putBySlot m mx st slot serial enabled = .written st') :
    serial.length = Config.serialLen ∧ m = .ok ∧ putOffset st slot ≤ st.size ∧
      putOffset st slot + Config.recordLen ≤ mx ∧
      st' = st.write (putOffset st slot) (encodeRecord serial enabled) := by
  unfold putBySlot at h
  split at h
  · simp at h
  split at h
  · simp at h
  split at h
  · simp at h
  split at h
  · simp at h
  next h1 h2 h3 h4 =>
  simp only [PutResult.written.injEq] at h
  refine ⟨by simpa using h1, ?_, by omega, by omega, h.symm⟩
  cases m <;> simp [openStore] at h2 ⊢

theorem putBySlot_noRoom {m : Medium} {mx : Nat} {st : Store} {slot : BitVec 16} {serial : Bytes} {enabled : Bool}
    (h : putBySlot m mx st slot serial enabled = .noRoom) :
    serial.length = Config.serialLen ∧ m = .ok ∧ putOffset st slot ≤ st.size ∧
      mx < putOffset st slot + Config.recordLen := by
  unfold putBySlot at h
  split at h
  · simp at h
  split at h
  · simp at h
  split at h
  · simp at h
  split at h
  · next h1 h2 h3 h4 =>
    refine ⟨by simpa using h1, ?_, by omega, h4⟩
    cases m <;> simp [openStore] at h2 ⊢
  · simp at h

theorem putBySlot_writes {mx : Nat} {st : Store} {slot : BitVec 16} {serial : Bytes} {enabled : Bool}
    (hs : serial.length = Config.serialLen) (ho : putOffset st slot ≤ st.size)
    (hr : putOffset st slot + Config.recordLen ≤ mx) :
    putBySlot .ok mx st slot serial enabled =
      .written (st.write (putOffset st slot) (encodeRecord serial enabled)) := by
  rw [putBySlot, if_neg (by simpa using hs), if_neg (by simp [openStore]), if_neg (by omega), if_neg (by omega)]

theorem putBySlot_noRoom_of {mx : Nat} {st : Store} {slot : BitVec 16} {serial : Bytes} {enabled : Bool}
    (hs : serial.length = Config.serialLen) (ho : putOffset st slot ≤ st.size)
    (hr : mx < putOffset st slot + Config.recordLen) : putBySlot .ok mx st slot serial enabled = .noRoom := by
  rw [putBySlot, if_neg (by simpa using hs), if_neg (by simp [openStore]), if_neg (by omega), if_pos hr]

theorem putBySlot_failure {m : Medium} {mx : Nat} {st : Store} {slot : BitVec 16} {serial : Bytes} {enabled : Bool}
    {c : SCode} (h : putBySlot m mx st slot serial enabled = .failure c) : c ≠ .success := by
  unfold putBySlot at h
  split at h
  · rintro rfl; simp at h
  split at h
  · next h2 => rintro rfl; simp only [PutResult.failure.injEq] at h; exact h2 h
  split at h
  · rintro rfl; simp at h
  split at h <;> simp at h

end Sys2Proof.Machine
end

