-- ==== Sys2Proof/Laws/Decode.lean ====
section
/-! SUPPORT. The fields of a command word, and what decoding a word can answer. -/

namespace Sys2Proof

@[simp] theorem opcode_commandWord (op imm : BitVec 8) : opcode (commandWord op imm) = op := by
  simp only [opcode, commandWord]
  ext i hi
  rw [BitVec.getElem_extractLsb', BitVec.getLsbD_append, if_neg (by omega)]
  simp [BitVec.getLsbD_eq_getElem hi]

@[simp] theorem imm8_commandWord (op imm : BitVec 8) : imm8 (commandWord op imm) = imm := by
  simp only [imm8, commandWord]
  ext i hi
  rw [BitVec.getElem_extractLsb', BitVec.getLsbD_append, if_pos (by omega)]
  simp [BitVec.getLsbD_eq_getElem hi]

/-- A command word is its two fields. -/
theorem commandWord_fields (w : BitVec 16) : commandWord (opcode w) (imm8 w) = w := by
  simp only [imm8, opcode, commandWord]
  ext i hi
  rw [BitVec.getElem_append]
  split
  · simp [BitVec.getLsbD_eq_getElem hi]
  · simp only [BitVec.getElem_extractLsb']
    rw [show 8 + (i - 8) = i by omega, BitVec.getLsbD_eq_getElem hi]

theorem formatN_eq_ok {w : BitVec 16} {i j : Instr} (h : formatN w i = .ok j) : imm8 w = 0#8 ∧ j = i := by
  unfold formatN at h
  split at h
  · next hi => exact ⟨hi, by simpa using h.symm⟩
  · simp at h

/-- A command word never decodes to APPEND, and is never rejected for want of a card (60_exceptions.md R215). -/
theorem decodeCommand_cases (w : BitVec 16) :
    (∃ i, decodeCommand w = .ok i ∧ ∀ level, i ≠ .append level) ∨ decodeCommand w = .error .illegalOpcode ∨
      decodeCommand w = .error .operandByteNotZero := by
  unfold decodeCommand
  split <;> (try unfold formatN) <;> (try split) <;> simp

/-- A register is named by its own number (10_state.md R30). -/
@[simp] theorem Reg.ofNumber_number (r : Reg) : Reg.ofNumber r.number = some r := by cases r <;> rfl

/-- The number that names a register is that register's own. -/
theorem Reg.number_eq_of_ofNumber {no : Nat} {r : Reg} (h : Reg.ofNumber no = some r) : r.number = no := by
  unfold Reg.ofNumber at h
  split at h <;> first | (cases h; rfl) | cases h

/-- An event word decodes to APPEND or to nothing (30_encoding.md R71). -/
theorem decodeEvent_cases (ev : BitVec 2) :
    (ev[1] = true ∧ decodeEvent ev = .ok (.append ev[0])) ∨
      (ev[1] = false ∧ decodeEvent ev = .error .notPresent) := by
  revert ev
  decide

end Sys2Proof
end

