-- ==== Sys2Proof/Laws/Decoder.lean ====
section
/-! SUPPORT. What reading a group, the leading zeros and the group loop do on the parts of a frame. -/

namespace Sys2Proof.Machine

open Sys2Proof.Safety

/-- Reading a group that stands at the cursor. -/
@[simp] theorem readGroup_groupBits (g : BitGroup) (rest : List Bool) : readGroup (groupBits g ++ rest) = some (g, rest) := rfl

/-- The bits run out inside a group, or there are none. -/
theorem readGroup_short {bits : List Bool} (h : bits.length < 5) : readGroup bits = none := by
  match bits, h with
  | [], _ | [_], _ | [_, _], _ | [_, _, _], _ | [_, _, _, _], _ => rfl

/-- A group that was read stood at the cursor. -/
theorem readGroup_eq_some {bits rest : List Bool} {g : BitGroup} (h : readGroup bits = some (g, rest)) :
    bits = groupBits g ++ rest := by
  unfold readGroup at h
  split at h
  · simp only [Option.some.injEq, Prod.mk.injEq] at h
    obtain ⟨rfl, rfl⟩ := h
    rfl
  · simp at h

theorem readGroup_eq_none {bits : List Bool} (h : readGroup bits = none) : bits.length < 5 := by
  unfold readGroup at h
  split at h
  · simp at h
  next hne =>
    by_contra hlen
    match bits, hlen with
    | d0 :: d1 :: d2 :: d3 :: p :: rest, _ => exact hne d0 d1 d2 d3 p rest rfl
    | [], h | [_], h | [_, _], h | [_, _, _], h | [_, _, _, _], h => simp at h

/-- The loop of step 4 in the words of 41_wiegand_decoder.md R128. -/
theorem groupLoop_eq (bits : List Bool) (acc : BitVec 32) :
    groupLoop bits acc =
      match readGroup bits with
      | none => .error .prematureEnd
      | some (g, rest) =>
        if g.odd = false then .error .parityFailure
        else if g.isEnd then .ok (acc, rest)
        else if g.d3 then .error .padFailure
        else groupLoop rest (accumulate acc g) := by
  cases h : readGroup bits with
  | none =>
    have := readGroup_eq_none h
    match bits, this with
    | [], _ | [_], _ | [_, _], _ | [_, _, _], _ | [_, _, _, _], _ => rfl
  | some t =>
    obtain ⟨g, rest⟩ := t
    rw [readGroup_eq_some h]
    obtain ⟨d0, d1, d2, d3, p⟩ := g
    rw [groupBits, List.cons_append, List.cons_append, List.cons_append, List.cons_append, List.cons_append,
      List.nil_append, groupLoop]
    simp only [Bool.not_eq_eq_eq_not, Bool.not_true]

theorem isData_not_end {g : BitGroup} (h : IsData g) : g.isEnd = false := by
  simp [BitGroup.isEnd, h.2]

/-- DATA groups are read into the accumulator one after the other. -/
theorem groupLoop_data {gs : List BitGroup} (h : ∀ g ∈ gs, IsData g) (rest : List Bool) (acc : BitVec 32) :
    groupLoop (gs.flatMap groupBits ++ rest) acc = groupLoop rest (gs.foldl accumulate acc) := by
  induction gs generalizing acc with
  | nil => rfl
  | cons g gs ih =>
    have hg := h g (by simp)
    rw [List.flatMap_cons, List.append_assoc, groupLoop_eq, readGroup_groupBits, List.foldl_cons]
    simp only [hg.1, isData_not_end hg, hg.2, Bool.true_eq_false, if_false, Bool.false_eq_true]
    exact ih (fun g' hg' => h g' (by simp [hg'])) _

theorem leadingZeros_replicate (n : Nat) (rest : List Bool) :
    leadingZeros n (List.replicate n false ++ rest) = .ok rest := by
  induction n with
  | zero => rfl
  | succ n ih => simpa [List.replicate_succ, leadingZeros] using ih

theorem leadingZeros_short {n m : Nat} (h : m < n) :
    leadingZeros n (List.replicate m false) = .error .prematureEnd := by
  induction n generalizing m with
  | zero => omega
  | succ n ih =>
    cases m with
    | zero => rfl
    | succ m => simpa [List.replicate_succ, leadingZeros] using ih (by omega)

theorem leadingZeros_one {n i : Nat} {bits : List Bool} (hi : i < n) (h : bits[i]? = some true) :
    leadingZeros n bits = .error .leadingZeros := by
  induction n generalizing i bits with
  | zero => omega
  | succ n ih =>
    cases bits with
    | nil => simp at h
    | cons b bits =>
      cases b with
      | true => rfl
      | false =>
        cases i with
        | zero => simp at h
        | succ i =>
          simp only [leadingZeros, Bool.false_eq_true, if_false]
          exact ih (i := i) (by omega) (by simpa using h)

theorem leadingZeros_ok {n : Nat} {bits rest : List Bool} (h : leadingZeros n bits = .ok rest) :
    bits = List.replicate n false ++ rest := by
  induction n generalizing bits with
  | zero => simpa [leadingZeros] using h
  | succ n ih =>
    cases bits with
    | nil => simp [leadingZeros] at h
    | cons b bits =>
      cases b with
      | true => simp [leadingZeros] at h
      | false =>
        simp only [leadingZeros, Bool.false_eq_true, if_false] at h
        simp [List.replicate_succ, ih h]

/-- A decode that gets past the leading zeros. -/
theorem decodeFrame_zeros (rest : List Bool) :
    decodeFrame (List.replicate 25 false ++ rest) = decodeGroups rest := by
  rw [decodeFrame, leadingZeros_replicate]

theorem isStart_iff {g : BitGroup} (h : g.odd = true) : g.isStart = true ↔ g = startGroup := by
  obtain ⟨d0, d1, d2, d3, p⟩ := g
  revert h
  cases d0 <;> cases d1 <;> cases d2 <;> cases d3 <;> cases p <;> decide

theorem isEnd_iff {g : BitGroup} (h : g.odd = true) : g.isEnd = true ↔ g = endGroup := by
  obtain ⟨d0, d1, d2, d3, p⟩ := g
  revert h
  cases d0 <;> cases d1 <;> cases d2 <;> cases d3 <;> cases p <;> decide

/-- A decode that gets past START and DATA groups. -/
theorem decodeFrame_head {gs : List BitGroup} (h : ∀ g ∈ gs, IsData g) (rest : List Bool) :
    decodeFrame (frameHead gs ++ rest) =
      match groupLoop rest (gs.foldl accumulate 0#32) with
      | .error c => .failure c
      | .ok (acc, rest') => finishFrame acc rest' := by
  rw [frameHead, List.append_assoc, List.append_assoc, decodeFrame_zeros, decodeGroups, readGroup_groupBits]
  have h1 : startGroup.odd = true := by decide
  have h2 : startGroup.isStart = true := by decide
  simp only [h1, h2, Bool.not_true, Bool.false_eq_true, if_false]
  exact groupLoop_data h rest 0#32 ▸ rfl

/-- A decode that gets past END. -/
theorem decodeFrame_end {gs : List BitGroup} (h : ∀ g ∈ gs, IsData g) (rest : List Bool) :
    decodeFrame (frameHead gs ++ groupBits endGroup ++ rest) = finishFrame (gs.foldl accumulate 0#32) rest := by
  rw [List.append_assoc, decodeFrame_head h, groupLoop_eq, readGroup_groupBits]
  rfl

end Sys2Proof.Machine
end

