-- ==== Sys2Proof/Laws/PerInstr.lean ====
section
/-! SUPPORT. Facts stated per instruction: the word of each lies on its row of spec/opcode_table.json
(30_encoding.md R86). -/

namespace Sys2Proof.Laws.EncodingRow

/-- The word of an instruction has its row's width, and the row's fixed bits have the row's values. -/
def Statement (i : Instr) : Prop :=
  (encode i).width = i.row.width ∧ (encode i).bits &&& i.row.mask = i.row.pattern

/-- A format I word: the low byte is masked out. -/
theorem formatI (op imm : BitVec 8) : (commandWord op imm).toNat &&& 0xFF00 = op.toNat * 256 := by
  have h : ∀ op imm : BitVec 8, (commandWord op imm) &&& 0xFF00#16 = commandWord op 0#8 := by
    intro op imm
    refine BitVec.eq_of_getLsbD_eq fun i hi => ?_
    simp only [commandWord, BitVec.getLsbD_and, BitVec.getLsbD_append]
    by_cases h8 : i < 8
    · rw [if_pos h8, if_pos h8]
      interval_cases i <;> simp
    · rw [if_neg h8, if_neg h8]
      interval_cases i <;> simp_all
  have := congrArg BitVec.toNat (h op imm)
  have happ : (commandWord op 0#8).toNat = op.toNat * 256 := by
    rw [commandWord, BitVec.toNat_append, Nat.shiftLeft_eq]
    simp
  rw [← happ, ← this]
  rfl

theorem append (level : Bool) : Statement (.append level) := by cases level <;> exact ⟨rfl, rfl⟩
theorem clear : Statement .clear := ⟨rfl, rfl⟩
theorem isfull : Statement .isfull := ⟨rfl, rfl⟩
theorem bitat (i : Nat) : Statement (.bitat i) := ⟨rfl, formatI 0x12#8 _⟩
theorem decode : Statement .decode := ⟨rfl, rfl⟩
theorem decodes (cap : Nat) : Statement (.decodes cap) := ⟨rfl, formatI 0x14#8 _⟩
theorem format : Statement .format := ⟨rfl, rfl⟩
theorem lookup : Statement .lookup := ⟨rfl, rfl⟩
theorem get : Statement .get := ⟨rfl, rfl⟩
theorem put : Statement .put := ⟨rfl, rfl⟩
theorem insert : Statement .insert := ⟨rfl, rfl⟩
theorem enum : Statement .enum := ⟨rfl, rfl⟩
theorem delete : Statement .delete := ⟨rfl, rfl⟩

end Sys2Proof.Laws.EncodingRow
end

