-- ==== Sys2Proof/Laws/Step.lean ====
section
/-! SUPPORT. What a step can do, said once: the cases of a step, of serving an input, and of every store command. -/

namespace Sys2Proof.Machine

/-- Everything a step that answers a next state can have done. -/
inductive StepCase (s t : State) : Prop where
  | idle (h : s.inputs = []) (ht : t = s)
  | instr (p : PortWord) (rest : List Input) (i : Instr) (h : s.inputs = PortWord.input p :: rest)
      (hd : decode p = .ok i) (ht : exec i { s with inputs := rest } = .next t)
  | noCard (ev : BitVec 2) (rest : List Input) (h : s.inputs = .event ev :: rest) (ht : t = { s with inputs := rest })
  | illegal (w : BitVec 16) (rest : List Input) (h : s.inputs = .write .cmd (.word w.toNat) :: rest)
      (hd : ∀ i, decode (.command w) ≠ .ok i) (ht : t = { s with inputs := rest, cerr := true })
  | load (r : Reg) (v : PortValue) (rest : List Input) (h : s.inputs = .write r v :: rest) (hr : r ≠ .cmd)
      (ha : r.accepts v = true) (ht : t = loadRegister r v { s with inputs := rest })
  | read (r : Reg) (v : PortValue) (rest : List Input) (h : s.inputs = .read r :: rest)
      (hv : registerValue r s = some v) (ht : t = { s with inputs := rest, reads := s.reads ++ [(r, v)] })
  | medium (m : Medium) (rest : List Input) (h : s.inputs = .medium m :: rest)
      (ht : t = { s with inputs := rest, medium := m })
  | reset (rest : List Input) (h : s.inputs = .reset :: rest) (ht : t = { s with inputs := rest }.resetBlock)

theorem step_idle {s : State} (h : s.inputs = []) : step s = .next s := by
  rw [step, nextInput, h]

theorem step_serve {s : State} {i : Input} {rest : List Input} (h : s.inputs = i :: rest) :
    step s = serve i { s with inputs := rest } := by
  rw [step, nextInput, h]

/-- The only decode errors of a command word are the two that fault. -/
theorem runWord_command_error {w : BitVec 16} {e : Reject} (h : decode (.command w) = .error e) (s : State) :
    runWord (.command w) s = .next s.faultCerr := by
  rw [runWord, h]
  cases e with
  | notPresent =>
    exfalso
    simp only [decode, decodeCommand] at h
    split at h <;> (try unfold formatN at h) <;> (try split at h) <;> simp at h
  | illegalOpcode => rfl
  | operandByteNotZero => rfl

theorem runWord_ok {p : PortWord} {i : Instr} (h : decode p = .ok i) (s : State) : runWord p s = exec i s := by
  rw [runWord, h]

theorem serve_input (p : PortWord) (s : State) : serve (PortWord.input p) s = runWord p s := by
  cases p with
  | event ev => rfl
  | command w =>
    have h : w.toNat < 2 ^ 16 := w.isLt
    simp only [PortWord.input, serve, hostWrite, hostWritable, Reg.accepts, decide_eq_true h, Bool.not_true,
      Bool.false_eq_true, if_false, BitVec.ofNat_toNat, BitVec.setWidth_eq]

theorem step_word {s : State} {p : PortWord} {rest : List Input} (h : s.inputs = PortWord.input p :: rest) :
    step s = runWord p { s with inputs := rest } := by
  rw [step_serve h, serve_input]

/-- A host write that is no command loads its register. -/
theorem hostWrite_next {r : Reg} {v : PortValue} {s t : State}
    (hr : ¬∃ n, r = .cmd ∧ v = .word n ∧ n < 2 ^ 16) (h : hostWrite r v s = .next t) :
    r ≠ .cmd ∧ r.accepts v = true ∧ t = loadRegister r v s := by
  unfold hostWrite at h
  split at h
  · simp at h
  split at h
  · simp at h
  next ha =>
  have ha : r.accepts v = true := by simpa using ha
  have hcmd : r ≠ .cmd := by
    rintro rfl
    cases v with
    | word n => exact hr ⟨n, rfl, rfl, by simpa [Reg.accepts] using ha⟩
    | text bs => simp [Reg.accepts] at ha
  refine ⟨hcmd, ha, ?_⟩
  cases r <;> first | exact absurd rfl hcmd | simpa using h.symm

/-- The cases of a step. -/
theorem step_cases {s t : State} (h : step s = .next t) : StepCase s t := by
  cases hin : s.inputs with
  | nil =>
    rw [step_idle hin] at h
    exact .idle hin (by simpa using h.symm)
  | cons i rest =>
    have word : ∀ p, s.inputs = PortWord.input p :: rest → StepCase s t := by
      intro p hp
      rw [step_word hp] at h
      cases hd : decode p with
      | ok j => exact .instr p rest j hp hd (by rwa [runWord_ok hd] at h)
      | error e =>
        cases p with
        | event ev =>
          rw [runWord, hd] at h
          have he : e = .notPresent := by
            simp only [decode, decodeEvent] at hd
            split at hd <;> simp_all
          subst he
          exact .noCard ev rest hp (by simpa using h.symm)
        | command w =>
          rw [runWord_command_error hd] at h
          exact .illegal w rest hp (by simp [hd]) (by simpa [State.faultCerr] using h.symm)
    cases i with
    | event ev => exact word (.event ev) hin
    | write r v =>
      by_cases hr : ∃ n, r = .cmd ∧ v = .word n ∧ n < 2 ^ 16
      · obtain ⟨n, rfl, rfl, hn⟩ := hr
        refine word (.command (BitVec.ofNat 16 n)) ?_
        rw [hin, PortWord.input, BitVec.toNat_ofNat, Nat.mod_eq_of_lt hn]
      · rw [step_serve hin, serve] at h
        obtain ⟨hcmd, ha, ht⟩ := hostWrite_next hr h
        exact .load r v rest hin hcmd ha ht
    | read r =>
      rw [step_serve hin, serve, hostRead] at h
      split at h
      · next v hv => exact .read r v rest hin (by simpa [registerValue] using hv) (by simpa using h.symm)
      · simp at h
    | medium m =>
      rw [step_serve hin, serve] at h
      exact .medium m rest hin (by simpa using h.symm)
    | reset =>
      rw [step_serve hin, serve] at h
      exact .reset rest hin (by simpa using h.symm)

/-! ### Runs -/

open Sys2Proof.Safety (run)

theorem run_succ {n : Nat} {s t : State} (h : step s = .next t) : run (n + 1) s = run n t := by
  rw [run, h]

/-- A run of several steps begins with a step. -/
theorem run_succ_next {n : Nat} {s u : State} (h : run (n + 1) s = .next u) :
    ∃ t, step s = .next t ∧ run n t = .next u := by
  rw [run] at h
  split at h
  · next t ht => exact ⟨t, ht, h⟩
  · simp at h
  · simp at h

/-- The run of the host's interface is this one. -/
theorem core_run (n : Nat) (s : State) : Sys2Proof.core.run n s = run n s := by
  induction n generalizing s with
  | zero => rfl
  | succ n ih =>
    rw [run, show Sys2Proof.core.run (n + 1) s = _ from Host.Core.run.eq_2 Sys2Proof.core s n,
      show Sys2Proof.core.step s = step s from rfl]
    cases step s with
    | next t => exact ih t
    | fault r => rfl
    | refused r => rfl

/-- What a store command that writes has done to the store: one record, inside the medium, without a hole. -/
structure StoreWrite (s : State) (st : Store) : Prop where
  write : ∃ off serial enabled, serial.length = Config.serialLen ∧ off ≤ s.store.size ∧
    off + Config.recordLen ≤ s.storeMax.val ∧ st = s.store.write off (encodeRecord serial enabled)

/-- The cases of PUT's tail, which DELETE shares. -/
theorem putRegisters_cases {s t : State} (h : putRegisters s = .next t) :
    (∃ c, c ≠ .success ∧ t = s.returnS c) ∨
      (∃ st, putBySlot s.medium s.storeMax.val s.store s.slot s.ser s.en = .written st ∧
        t = (s.setStore st).returnS .success) := by
  unfold putRegisters at h
  split at h
  · next c hc => exact .inl ⟨c, putBySlot_failure hc, by simpa using h.symm⟩
  · simp at h
  · next st hst => exact .inr ⟨st, hst, by simpa using h.symm⟩

theorem insertAt_cases {s t : State} {target : BitVec 16} {newslot : Nat} (h : insertAt target newslot s = .next t) :
    (∃ c, c ≠ .success ∧ t = s.returnS c) ∨
      (∃ st, putBySlot s.medium s.storeMax.val s.store target s.ser s.en = .written st ∧
        t = { (s.setStore st).returnS .success with slot := BitVec.ofNat 16 newslot }) := by
  unfold insertAt at h
  split at h
  · next c hc => exact .inl ⟨c, putBySlot_failure hc, by simpa using h.symm⟩
  · simp at h
  · next st hst => exact .inr ⟨st, hst, by simpa using h.symm⟩

theorem scan_failure_ne_success {st : Store} {key : Bytes} {c : SCode} (h : scan st key = .failure c) :
    c ≠ .success := by
  obtain ⟨m, _, hm⟩ := scan_failure h
  rcases hm with ⟨_, rfl⟩ | ⟨hp, _⟩
  · simp
  · rcases parseAt_codes hp with rfl | rfl | rfl | rfl <;> simp

theorem openStore_ok {m : Medium} : openStore m = .success ↔ m = .ok := by
  cases m <;> simp [openStore]

/-- The cases of LOOKUP. -/
theorem execLookup_cases {s t : State} (h : execLookup s = .next t) :
    (∃ c, c ≠ .success ∧ t = s.returnS c) ∨
      (∃ k enabled, s.medium = .ok ∧ scan s.store s.ser = .found s.ser k enabled ∧
        t = { s with sstat := .success, slot := BitVec.ofNat 16 k, en := enabled }) := by
  unfold execLookup at h
  split at h
  · next hm => exact .inl ⟨_, hm, by simpa using h.symm⟩
  next hm =>
  split at h
  · next c hc => exact .inl ⟨c, scan_failure_ne_success hc, by simpa using h.symm⟩
  · next serial k enabled hs =>
    obtain rfl := (scan_found hs).1
    exact .inr ⟨k, enabled, openStore_ok.1 (by simpa using hm), hs, by
      simpa [State.setRecord, State.returnS] using h.symm⟩

/-- The cases of GET. -/
theorem execGet_cases {s t : State} (h : execGet s = .next t) :
    (∃ c, c ≠ .success ∧ t = s.returnS c) ∨
      (∃ serial enabled, s.medium = .ok ∧ parseAt s.store (slotOffset s.slot) = .record serial enabled ∧
        t = { s with sstat := .success, ser := serial, en := enabled }) := by
  unfold execGet at h
  split at h
  · next hm => exact .inl ⟨_, hm, by simpa using h.symm⟩
  next hm =>
  split at h
  · exact .inl ⟨.eof, by simp, by simpa using h.symm⟩
  split at h
  · next c hc =>
    refine .inl ⟨c, ?_, by simpa using h.symm⟩
    rcases parseAt_codes hc with rfl | rfl | rfl | rfl <;> simp
  · next serial enabled hp =>
    exact .inr ⟨serial, enabled, openStore_ok.1 (by simpa using hm), hp, by
      simpa [State.setRecord, State.returnS] using h.symm⟩

/-- The cases of INSERT. -/
theorem execInsert_cases {s t : State} (h : execInsert s = .next t) :
    (∃ c, c ≠ .success ∧ t = s.returnS c) ∨
      (s.medium = .ok ∧ scan s.store s.ser = .failure .recordNotFound ∧ ∃ target newslot st,
        ((∃ enabled, scan s.store blankSerial = .found blankSerial newslot enabled ∧ target = BitVec.ofNat 16 newslot) ∨
          (scan s.store blankSerial = .failure .recordNotFound ∧ target = Config.slotAppend ∧
            newslot = s.store.size / Config.recordLen)) ∧
        putBySlot s.medium s.storeMax.val s.store target s.ser s.en = .written st ∧
        t = { s with store := st, sstat := .success, slot := BitVec.ofNat 16 newslot }) := by
  unfold execInsert at h
  split at h
  · next hm => exact .inl ⟨_, hm, by simpa using h.symm⟩
  next hm =>
  have hok : s.medium = .ok := openStore_ok.1 (by simpa using hm)
  split at h
  · exact .inl ⟨.alreadyExists, by simp, by simpa using h.symm⟩
  · next hs =>
    split at h
    · next serial k enabled hb =>
      obtain rfl := (scan_found hb).1
      rcases insertAt_cases h with ⟨c, hc, ht⟩ | ⟨st, hst, ht⟩
      · exact .inl ⟨c, hc, ht⟩
      · exact .inr ⟨hok, hs, _, k, st, .inl ⟨enabled, hb, rfl⟩, hst, ht⟩
    · next hb =>
      rcases insertAt_cases h with ⟨c, hc, ht⟩ | ⟨st, hst, ht⟩
      · exact .inl ⟨c, hc, ht⟩
      · exact .inr ⟨hok, hs, _, _, st, .inr ⟨hb, rfl, rfl⟩, hst, ht⟩
    · next c _ hc => exact .inl ⟨c, scan_failure_ne_success hc, by simpa using h.symm⟩
  · next c _ hc => exact .inl ⟨c, scan_failure_ne_success hc, by simpa using h.symm⟩

/-- The cases of ENUM. -/
theorem execEnum_cases {s t : State} (h : execEnum s = .next t) :
    (∃ c, c ≠ .success ∧ t = s.returnS c) ∨
      (s.medium = .ok ∧ t = { s with sstat := (enumFrom s.store (scanPasses s.store) 0).2,
                                       visits := s.visits ++ (enumFrom s.store (scanPasses s.store) 0).1 }) := by
  unfold execEnum at h
  split at h
  · next hm => exact .inl ⟨_, hm, by simpa using h.symm⟩
  · next hm => exact .inr ⟨openStore_ok.1 (by simpa using hm), by
      simpa [State.emitVisits, State.returnS] using h.symm⟩

/-- When PUT's tail is refused: every test passed, and the write would end beyond STORE_MAX_BYTES (20_memory.md R57). -/
theorem putRegisters_refused_iff {s : State} {r : Refusal} : putRegisters s = .refused r ↔
    r = .storeFull ∧ s.medium = .ok ∧ s.ser.length = Config.serialLen ∧ putOffset s.store s.slot ≤ s.store.size ∧
      s.storeMax.val < putOffset s.store s.slot + Config.recordLen := by
  unfold putRegisters
  constructor
  · intro h
    split at h
    · simp at h
    · next hn =>
      obtain ⟨h1, h2, h3, h4⟩ := putBySlot_noRoom hn
      exact ⟨by simpa using h.symm, h2, h1, h3, h4⟩
    · simp at h
  · rintro ⟨rfl, h2, h1, h3, h4⟩
    rw [h2, putBySlot_noRoom_of h1 h3 h4]

/-- The same of INSERT's write. -/
theorem insertAt_refused_iff {s : State} {target : BitVec 16} {newslot : Nat} {r : Refusal} :
    insertAt target newslot s = .refused r ↔
      r = .storeFull ∧ s.medium = .ok ∧ s.ser.length = Config.serialLen ∧ putOffset s.store target ≤ s.store.size ∧
        s.storeMax.val < putOffset s.store target + Config.recordLen := by
  unfold insertAt
  constructor
  · intro h
    split at h
    · simp at h
    · next hn =>
      obtain ⟨h1, h2, h3, h4⟩ := putBySlot_noRoom hn
      exact ⟨by simpa using h.symm, h2, h1, h3, h4⟩
    · simp at h
  · rintro ⟨rfl, h2, h1, h3, h4⟩
    rw [h2, putBySlot_noRoom_of h1 h3 h4]

/-- A written store is one record's write. -/
theorem putBySlot_storeWrite {s : State} {slot : BitVec 16} {serial : Bytes} {enabled : Bool} {st : Store}
    (h : putBySlot s.medium s.storeMax.val s.store slot serial enabled = .written st) : StoreWrite s st := by
  obtain ⟨h1, _, h3, h4, h5⟩ := putBySlot_written h
  exact ⟨⟨_, _, _, h1, h3, h4, h5⟩⟩

/-- A record's write keeps the canonical form and the bounds of the store. -/
theorem StoreWrite.keeps {s : State} {st : Store} (h : StoreWrite s st) (hw : s.store.mem.wf = true)
    (hb : s.store.mem.below s.store.size = true) (hs : s.store.size ≤ s.storeMax.val) :
    st.mem.wf = true ∧ st.mem.below st.size = true ∧ st.size ≤ s.storeMax.val ∧ s.store.size ≤ st.size := by
  obtain ⟨off, serial, enabled, hlen, hoff, hmax, rfl⟩ := h
  simp only [Config.serialLen, Config.recordLen] at hlen hmax
  simp only [store_write_mem, store_write_size, length_encodeRecord, hlen]
  refine ⟨Memory.wf_writeBytes hw _ _, Memory.below_writeBytes (Memory.below_mono hb (le_max_left _ _)) ?_, ?_, ?_⟩
  · simp only [length_encodeRecord, hlen]
    exact le_max_right _ _
  · omega
  · exact le_max_left _ _

end Sys2Proof.Machine
end

