-- ==== Sys2Proof/Tests/Slice0.lean ====
section
/-! SUPPORT. The well-formedness smoke, decoding of words written out from the spec, one-step tests whose expected
results are the vectors of 95_test_vectors.md, and a witness for the hypotheses of every obligation. -/

namespace Sys2Proof.Tests

open Sys2Proof.Machine
open Sys2Proof.Safety

/-! ### Helpers -/

/-- Characters as bytes. -/
def text (cs : List Char) : Bytes := cs.map fun c => BitVec.ofNat 8 c.toNat

def serialA : Bytes := text ['1', '2', '3', '-', '4', '5', '6', '7', '8']
def serialB : Bytes := text ['0', '0', '1', '-', '0', '0', '0', '0', '2']
def serialC : Bytes := text ['0', '4', '5', '-', '0', '0', '6', '7', '8']
def serialZ : Bytes := text ['Z', 'Z', 'Z', 'Z', 'Z', 'Z', 'Z', 'Z', 'Z']

/-- `"123-45678,1\n"`. -/
def recordA : Bytes := text ['1', '2', '3', '-', '4', '5', '6', '7', '8', ',', '1', '\n']
/-- `"001-00002,0\n"`. -/
def recordB : Bytes := text ['0', '0', '1', '-', '0', '0', '0', '0', '2', ',', '0', '\n']
/-- `"ZZZZZZZZZ,0\n"`. -/
def recordZ : Bytes := text ['Z', 'Z', 'Z', 'Z', 'Z', 'Z', 'Z', 'Z', 'Z', ',', '0', '\n']
/-- `"123-4567,1\n0"`, slot 1 of the store of vector S6. -/
def recordBad : Bytes := text ['1', '2', '3', '-', '4', '5', '6', '7', ',', '1', '\n', '0']

/-- The state after reset with a given store. -/
def withStore (bs : Bytes) : State := { State.reset with store := Store.ofBytes bs }

/-- A field of the next state. -/
def after {α : Type} (o : Host.Outcome State Fault Refusal) (f : State → α) : Option α :=
  match o with
  | .next t => some (f t)
  | .fault _ => none
  | .refused _ => none

/-- The reason of a refusal. -/
def refusal (o : Host.Outcome State Fault Refusal) : Option Refusal :=
  match o with
  | .next _ => none
  | .fault _ => none
  | .refused r => some r

/-- `n` zeros. -/
def z (n : Nat) : List Bool := List.replicate n false

/-- A group from its five bits in time order. -/
def g (d0 d1 d2 d3 p : Nat) : List Bool := [d0 == 1, d1 == 1, d2 == 1, d3 == 1, p == 1]

/-- The nine DATA groups of W1, as bits. -/
def dataW1 : List Bool :=
  g 0 0 0 0 1 ++ g 1 1 1 0 0 ++ g 1 0 1 0 1 ++ g 0 1 1 0 1 ++ g 0 1 1 0 1 ++ g 0 1 0 0 0 ++ g 1 1 0 0 1 ++
    g 1 1 0 0 1 ++ g 0 0 1 0 0

/-- Vector W1 of 95_test_vectors.md. -/
def w1 : List Bool := z 25 ++ g 1 1 0 1 0 ++ dataW1 ++ g 1 1 1 1 1 ++ g 0 0 0 0 1 ++ z 170
/-- Vector W3. -/
def w3 : List Bool := z 25 ++ g 1 1 0 1 0 ++ g 1 1 1 1 1 ++ g 0 0 0 0 1 ++ z 215
/-- Vector W4. -/
def w4 : List Bool :=
  z 25 ++ g 1 1 0 1 0 ++ g 1 0 0 0 0 ++ (List.replicate 7 (g 1 1 1 0 0)).flatten ++ g 0 1 1 0 1 ++ g 1 1 1 1 1 ++
    g 0 0 0 0 1 ++ z 170
/-- Vector W6. -/
def w6 : List Bool :=
  z 25 ++ g 1 1 0 1 0 ++ (List.replicate 43 (g 1 0 0 0 0)).flatten ++ g 1 1 1 1 1 ++ g 0 0 0 0 1

/-- A full capture of 255 bits. -/
def captured (bits : List Bool) (h : bits.length = 255) : State :=
  { State.reset with buf := ⟨bits.toArray, by simpa using h⟩, len := 255#8 }

def stateW1 : State := captured w1 (by decide +kernel)

/-- `len` = 3 and the cells 0, 1, 1 (vector BC8). -/
def state011 : State :=
  { State.reset with buf := ((Vector.replicate 255 false).setIfInBounds 1 true).setIfInBounds 2 true, len := 3#8 }

/-! ### Well-formedness refuses -/

theorem test_wf_bitat_256 : Instr.wf (.bitat 256) = false ∧ Instr.wf (.bitat 255) = true := by decide
theorem test_wf_decodes_256 : Instr.wf (.decodes 256) = false ∧ Instr.wf (.decodes 255) = true := by decide
theorem test_wf_write_readonly :
    Input.wf (.write .bval (.word 0)) = false ∧ Input.wf (.write .wstat (.word 0)) = false ∧
      Input.wf (.write .sstat (.word 0)) = false ∧ Input.wf (.write .cerr (.word 0)) = false := by decide
theorem test_wf_write_too_wide :
    Input.wf (.write .fac (.word 256)) = false ∧ Input.wf (.write .card (.word 65536)) = false ∧
      Input.wf (.write .slot (.word 65536)) = false ∧ Input.wf (.write .en (.word 2)) = false ∧
      Input.wf (.write .cmd (.word 65536)) = false := by decide
theorem test_wf_write_serial :
    Input.wf (.write .ser (.text (List.replicate 16 0x41#8))) = false ∧
      Input.wf (.write .ser (.text (List.replicate 15 0x41#8))) = true := by decide
theorem test_wf_write_wrong_kind :
    Input.wf (.write .ser (.word 0)) = false ∧ Input.wf (.write .fac (.text [])) = false := by decide
theorem test_wf_read_cmd : Input.wf (.read .cmd) = false ∧ Input.wf (.read .cerr) = true := by decide

/-! ### Decoding (30_encoding.md R70, R72, R74: `present level`, `opcode imm8`) -/

theorem test_decode_append :
    decode (.event 0b10#2) = .ok (.append false) ∧ decode (.event 0b11#2) = .ok (.append true) := ⟨rfl, rfl⟩
theorem test_decode_no_card :
    decode (.event 0b00#2) = .error .notPresent ∧ decode (.event 0b01#2) = .error .notPresent := ⟨rfl, rfl⟩
theorem test_decode_clear : decode (.command 0b0001000000000000#16) = .ok .clear := rfl
theorem test_decode_isfull : decode (.command 0b0001000100000000#16) = .ok .isfull := rfl
theorem test_decode_bitat :
    decode (.command 0b0001001000000000#16) = .ok (.bitat 0) ∧
      decode (.command 0b0001001011111110#16) = .ok (.bitat 254) := ⟨rfl, rfl⟩
theorem test_decode_decode : decode (.command 0b0001001100000000#16) = .ok .decode := rfl
theorem test_decode_decodes :
    decode (.command 0b0001010000001001#16) = .ok (.decodes 9) ∧
      decode (.command 0b0001010011111111#16) = .ok (.decodes 255) := ⟨rfl, rfl⟩
theorem test_decode_format : decode (.command 0b0001010100000000#16) = .ok .format := rfl
theorem test_decode_lookup : decode (.command 0b0010000000000000#16) = .ok .lookup := rfl
theorem test_decode_get : decode (.command 0b0010000100000000#16) = .ok .get := rfl
theorem test_decode_put : decode (.command 0b0010001000000000#16) = .ok .put := rfl
theorem test_decode_insert : decode (.command 0b0010001100000000#16) = .ok .insert := rfl
theorem test_decode_enum : decode (.command 0b0010010000000000#16) = .ok .enum := rfl
theorem test_decode_delete : decode (.command 0b0010010100000000#16) = .ok .delete := rfl

/-- Vectors DC13, DC14. -/
theorem test_decode_illegal :
    decode (.command 0x1301#16) = .error .operandByteNotZero ∧ decode (.command 0x0000#16) = .error .illegalOpcode ∧
      decode (.command 0x1600#16) = .error .illegalOpcode ∧ decode (.command 0x2600#16) = .error .illegalOpcode ∧
      decode (.command 0xFFFF#16) = .error .illegalOpcode ∧ decode (.command 0x0FFF#16) = .error .illegalOpcode ∧
      decode (.command 0x1FFF#16) = .error .illegalOpcode := ⟨rfl, rfl, rfl, rfl, rfl, rfl, rfl⟩

/-- The twelve command rows of 30_encoding.md R74. -/
def commandRows : List Row :=
  [.clear, .isfull, .bitat 0, .decode, .decodes 0, .format, .lookup, .get, .put, .insert, .enum, .delete].map Instr.row

/-- No two rows overlap (30_encoding.md R75): two rows' patterns differ in a bit that both fix. -/
theorem test_rows_do_not_overlap :
    commandRows.Pairwise fun r r' => r.pattern &&& r'.mask ≠ r'.pattern &&& r.mask := by decide

/-- A row's word, presented to the machine after reset, runs as that instruction. -/
theorem test_fetch_runs :
    step (State.reset.withFetchWord 8 0b11) = exec (.append true) State.reset ∧
      step (State.reset.withFetchWord 16 0x1000) = exec .clear State.reset ∧
      step (State.reset.withFetchWord 16 0x12FF) = exec (.bitat 255) State.reset ∧
      step (State.reset.withFetchWord 16 0x1300) = exec .decode State.reset ∧
      step (State.reset.withFetchWord 16 0x2500) = exec .delete State.reset := ⟨rfl, rfl, rfl, rfl, rfl⟩

/-! ### BitCapture -/

/-- Vectors BC1, BC2. -/
theorem test_append_inverts :
    after (exec (.append false) State.reset) (fun t => (t.len, cellAt t 0, t.appOks)) = some (1#8, true, [true]) ∧
      after (exec (.append true) State.reset) (fun t => (t.len, cellAt t 0, t.appOks)) = some (1#8, false, [true]) := by
  decide +kernel

/-- Vectors BC4, BC5. -/
theorem test_append_at_capacity :
    after (exec (.append true) { State.reset with len := 254#8 }) (fun t => (t.len, t.full, t.appOks)) =
        some (255#8, true, [true]) ∧
      exec (.append false) { State.reset with len := 255#8 } =
        .next { State.reset with len := 255#8, appOks := [false] } := ⟨by decide +kernel, rfl⟩

/-- Vectors BC11, BC15. -/
theorem test_clear :
    after (exec .clear { stateW1 with fac := 123#8 }) (fun t => (t.len, t.fac, cellAt t 25)) =
      some (0#8, 123#8, true) := by decide +kernel

/-- Vectors BC6, BC7. -/
theorem test_isfull :
    after (exec .isfull { State.reset with len := 254#8 }) State.bval = some 0#2 ∧
      after (exec .isfull { State.reset with len := 255#8 }) State.bval = some 1#2 := by decide +kernel

/-- Vectors BC8, BC9. -/
theorem test_bitat :
    [0, 1, 2, 3, 254, 255].map (fun i => after (exec (.bitat i) state011) State.bval) =
      [some 0#2, some 1#2, some 1#2, some 2#2, some 2#2, some 2#2] := by decide +kernel

/-! ### WiegandDecoder -/

/-- Vectors W1 to W7: W2 and W5 differ from W1 in bits the extraction ignores, W7 in its LRC. -/
theorem test_decode_successes :
    decodeFrame w1 = .pair 123#8 45678#16 ∧
      decodeFrame (w1.set 31 true |>.set 32 true |>.set 70 true |>.set 74 true) = .pair 123#8 45678#16 ∧
      decodeFrame w3 = .pair 0#8 0#16 ∧ decodeFrame w4 = .pair 255#8 65535#16 ∧
      decodeFrame (z 25 ++ g 1 1 0 1 0 ++ dataW1.drop 5 ++ g 1 1 1 1 1 ++ g 0 0 0 0 1 ++ z 175) =
        .pair 123#8 45678#16 ∧
      decodeFrame w6 = .pair 146#8 18724#16 ∧
      decodeFrame (w1.set 80 true |>.set 82 true |>.set 83 true |>.set 84 false) = .pair 123#8 45678#16 := by
  decide +kernel

/-- Vectors E1 to E9. -/
theorem test_decode_failures :
    decodeFrame (w1.modify 7 not) = .failure .leadingZeros ∧
      decodeFrame (List.replicate 255 true) = .failure .leadingZeros ∧
      decodeFrame (w1.modify 29 not) = .failure .parityFailure ∧
      decodeFrame ((w1.modify 27 not).modify 29 not) = .failure .invalidStart ∧
      decodeFrame (w1.modify 25 not) = .failure .parityFailure ∧
      decodeFrame (w1.modify 34 not) = .failure .parityFailure ∧
      decodeFrame ((w1.modify 33 not).modify 34 not) = .failure .padFailure ∧
      decodeFrame (w1.modify 79 not) = .failure .parityFailure ∧
      decodeFrame (w1.modify 84 not) = .failure .lrcParityFailure := by decide +kernel

/-- Vectors E10 to E17. -/
theorem test_decode_ends :
    decodeFrame (w1.modify 85 not) = .failure .trailingZeros ∧
      decodeFrame (w1.modify 254 not) = .failure .trailingZeros ∧
      decodeFrame (z 25 ++ g 1 1 0 1 0 ++ (List.replicate 45 (g 0 0 0 0 1)).flatten) = .failure .prematureEnd ∧
      decodeFrame (z 25 ++ g 1 1 0 1 0 ++ (List.replicate 44 (g 0 0 0 0 1)).flatten ++ g 1 1 1 1 1) =
        .failure .prematureEnd ∧
      decodeFrame (z 255) = .failure .parityFailure ∧
      decodeFrame (z 25 ++ g 1 1 0 1 0 ++ g 1 1 0 1 0 ++ w1.drop 35) = .failure .padFailure ∧
      decodeFrame (z 10) = .failure .prematureEnd ∧
      decodeFrame (z 25 ++ [true, true]) = .failure .prematureEnd := by decide +kernel

/-- Vectors DC1, DC7. -/
theorem test_exec_decode :
    after (exec .decode stateW1) (fun t => (t.wstat.number, t.fac, t.card, t.ser)) =
        some (0#4, 123#8, 45678#16, []) ∧
      exec .decode { State.reset with len := 254#8 } = .next { State.reset with len := 254#8, cerr := true } :=
  ⟨by decide +kernel, rfl⟩

/-- Vectors DC2, DC3, DC5, DC8. -/
theorem test_exec_decodes :
    after (exec (.decodes 9) stateW1) (fun t => (t.wstat.number, t.fac, t.card, t.ser)) =
        some (0#4, 123#8, 45678#16, serialA) ∧
      after (exec (.decodes 8) stateW1) (fun t => (t.wstat.number, t.fac, t.card, t.ser)) = some (8#4, 0#8, 0#16, []) ∧
      after (exec (.decodes 0) (captured (List.replicate 255 true) (by decide +kernel))) (fun t => t.wstat.number) =
        some 8#4 ∧
      after (exec (.decodes 9) State.reset) State.cerr = some true := by decide +kernel

/-- Vectors DC9, DC11. -/
theorem test_exec_format :
    after (exec .format { State.reset with fac := 7#8, card := 42#16 }) State.ser =
        some [0x30#8, 0x30#8, 0x37#8, 0x2D#8, 0x30#8, 0x30#8, 0x30#8, 0x34#8, 0x32#8] ∧
      after (exec .format { State.reset with fac := 255#8, card := 65535#16 }) State.ser =
        some (text ['2', '5', '5', '-', '6', '5', '5', '3', '5']) := by decide +kernel

/-! ### CardStore -/

/-- Vectors S1 to S9. -/
theorem test_parse_lengths :
    parseAt (Store.ofBytes []) 0 = .failure .eof ∧
      parseAt (Store.ofBytes recordA) 0 = .record serialA true ∧
      parseAt (Store.ofBytes (recordA.take 11)) 0 = .failure .recordTooShort ∧
      parseAt (Store.ofBytes (recordA.take 11 ++ text ['X'])) 0 = .failure .recordTooLong ∧
      parseAt (Store.ofBytes (recordA ++ recordBad)) 12 = .failure .recordTooShort ∧
      parseAt (Store.ofBytes (recordA ++ recordBad)) 24 = .failure .eof ∧
      parseAt (Store.ofBytes (recordA ++ text ['1', '2', '3', '-', '4', '5', '6', '7', '8', '9', ',', '1', '\n'])) 12 =
        .failure .recordTooLong ∧
      parseAt (Store.ofBytes (recordA ++ text ['1', '2', '3', '-', '4', '5', '6', '7', '8', '9', ',', '1', '\n'])) 24 =
        .failure .recordTooShort := by decide +kernel

/-- Vectors S10 to S17. -/
theorem test_parse_tokens :
    parseAt (Store.ofBytes (recordA.set 9 0x3B#8)) 0 = .failure .invalidRecord ∧
      parseAt (Store.ofBytes (text [',', '1', '2', '3', '-', '4', '5', '6', '7', '8', '1', '\n'])) 0 =
        .failure .invalidRecord ∧
      parseAt (Store.ofBytes (text ['1', '2', '3', '-', '4', '5', '6', '7', '8', '1', ',', '\n'])) 0 =
        .failure .invalidRecord ∧
      parseAt (Store.ofBytes (text [' ', '2', '3', '-', '4', '5', '6', '7', ' ', ',', '1', '\n'])) 0 =
        .record (text ['2', '3', '-', '4', '5', '6', '7']) true ∧
      parseAt (Store.ofBytes (List.replicate 9 0x20#8 ++ text [',', '1', '\n'])) 0 = .record [] true ∧
      parseAt (Store.ofBytes (recordA.set 10 0x32#8)) 0 = .record serialA false ∧
      parseAt (Store.ofBytes (text ['1', '2', ',', '1', '-', '4', '5', '6', '7', '8', '9', '\n'])) 0 =
        .record (text ['1', '2']) true ∧
      parseAt (Store.ofBytes recordZ) 0 = .record serialZ false := by decide +kernel

/-- Vectors T1, T2. -/
theorem test_exec_lookup :
    after (exec .lookup { State.reset with ser := serialA }) (fun t => t.sstat.number) = some 5#4 ∧
      after (exec .lookup { withStore (recordA.set 10 0x30#8 ++ recordA) with ser := serialA, slot := 7#16 })
        (fun t => (t.sstat.number, t.slot, t.en)) = some (0#4, 0#16, false) := by decide +kernel

/-- Vectors T3, T5, T6: a trimmed serial matches, and a bad record hides only what is above it. -/
theorem test_exec_lookup_order :
    after (exec .lookup { withStore (recordA ++ text ['1', '2', '-', '3', '4', '5', ' ', ' ', ' ', ',', '1', '\n']) with
        ser := text ['1', '2', '-', '3', '4', '5'] }) (fun t => (t.sstat.number, t.slot, t.en)) =
        some (0#4, 1#16, true) ∧
      after (exec .lookup { withStore (recordA ++ recordBad) with ser := serialA }) (fun t => t.sstat.number) =
        some 0#4 ∧
      after (exec .lookup { withStore (recordA ++ recordBad) with ser := serialC }) (fun t => t.sstat.number) =
        some 2#4 := by decide +kernel

/-- The example of 42_cardstore.md R170, and vector S18. -/
theorem test_exec_get :
    after (exec .get { withStore (recordA ++ recordB) with slot := 1#16, en := true })
        (fun t => (t.sstat.number, t.ser, t.en)) = some (0#4, serialB, false) ∧
      after (exec .get { withStore (recordA ++ recordB) with slot := 2#16 }) (fun t => t.sstat.number) = some 6#4 ∧
      after (exec .get { withStore recordA with medium := .absent }) (fun t => (t.sstat.number, t.store.bytes)) =
        some (7#4, recordA) := by decide +kernel

/-- Vectors T9, T11, S20. -/
theorem test_exec_put :
    after (exec .put { State.reset with slot := 0xFFFF#16, ser := serialA, en := true })
        (fun t => (t.sstat.number, t.store.bytes, t.slot)) =
        some (0#4, [0x31#8, 0x32#8, 0x33#8, 0x2D#8, 0x34#8, 0x35#8, 0x36#8, 0x37#8, 0x38#8, 0x2C#8, 0x31#8, 0x0A#8],
          0xFFFF#16) ∧
      after (exec .put { State.reset with slot := 1#16, ser := serialA, en := true })
        (fun t => (t.sstat.number, t.store)) = some (6#4, ⟨[], 0⟩) ∧
      after (exec .put { State.reset with medium := .absent, ser := text ['1', '2', '3'] })
        (fun t => t.sstat.number) = some 4#4 := by decide +kernel

/-- Vectors T14, T15: an append lies at the end, an overwrite at its slot. -/
theorem test_exec_put_malformed :
    after (exec .put { withStore (text ['a', 'b', 'c']) with slot := 0xFFFF#16, ser := serialA, en := true })
        (fun t => t.store.bytes) = some (text ['a', 'b', 'c'] ++ recordA) ∧
      after (exec .put { withStore (text ['a', 'b', 'c']) with slot := 0#16, ser := serialA, en := true })
        (fun t => t.store.bytes) = some recordA := by decide +kernel

/-- The example of 42_cardstore.md R180 and vector T20. -/
theorem test_exec_insert :
    after (exec .insert { withStore (recordA ++ recordZ ++ recordB) with ser := serialC, en := true })
        (fun t => (t.sstat.number, t.slot, t.store.bytes)) =
        some (0#4, 1#16, recordA ++ serialC ++ text [',', '1', '\n'] ++ recordB) ∧
      after (exec .insert { withStore recordA with ser := serialA, slot := 9#16 })
        (fun t => (t.sstat.number, t.slot, t.store.bytes)) = some (8#4, 9#16, recordA) := by decide +kernel

/-- Vectors T7, T19, T21. -/
theorem test_exec_insert_rejects :
    after (exec .insert { withStore (recordA ++ recordBad) with ser := serialC })
        (fun t => (t.sstat.number, t.store.bytes)) = some (2#4, recordA ++ recordBad) ∧
      after (exec .insert { State.reset with ser := serialZ }) (fun t => (t.slot, t.store.bytes)) =
        some (0#16, recordZ) ∧
      after (exec .insert { withStore recordA with ser := text ['1', '2', '-', '3', '4', '5'] })
        (fun t => (t.sstat.number, t.store.bytes)) = some (4#4, recordA) := by decide +kernel

/-- Vectors T8, T25, and the example of 42_cardstore.md R184. -/
theorem test_exec_enum :
    after (exec .enum (withStore (recordA ++ recordZ))) (fun t => (t.sstat.number, t.visits)) =
        some (0#4, [⟨serialA, 0, true⟩, ⟨serialZ, 1, false⟩]) ∧
      after (exec .enum (withStore (recordA ++ recordBad))) (fun t => (t.sstat.number, t.visits)) =
        some (2#4, [⟨serialA, 0, true⟩]) ∧
      after (exec .enum State.reset) (fun t => (t.sstat.number, t.visits)) = some (0#4, []) := by decide +kernel

/-- Vectors T22, T24. -/
theorem test_exec_delete :
    after (exec .delete { withStore (recordA ++ recordB) with slot := 1#16, en := true })
        (fun t => (t.sstat.number, t.store.bytes, t.ser, t.en)) = some (0#4, recordA ++ recordZ, serialZ, false) ∧
      after (exec .delete { withStore recordA with slot := 2#16, en := true })
        (fun t => (t.sstat.number, t.store.bytes, t.ser, t.en)) = some (6#4, recordA, serialZ, false) := by
  decide +kernel

/-! ### The ports -/

/-- Vector BC3: an event without a card changes nothing. -/
theorem test_step_no_card :
    step (({ State.reset with len := 5#8 } : State).present (.event 0b00#2)) = .next { State.reset with len := 5#8 } ∧
      step (({ State.reset with len := 5#8 } : State).present (.event 0b01#2)) =
        .next { State.reset with len := 5#8 } := ⟨rfl, rfl⟩

/-- Vector DC13: an illegal word sets CERR. -/
theorem test_step_illegal :
    step (State.reset.present (.write .cmd (.word 0x1301))) = .next { State.reset with cerr := true } := rfl

theorem test_step_refuses :
    refusal (step (State.reset.present (.write .wstat (.word 0)))) = some .readOnlyRegister ∧
      refusal (step (State.reset.present (.read .cmd))) = some .writeOnlyRegister ∧
      refusal (step (State.reset.present (.write .fac (.word 256)))) = some .portCannotCarry ∧
      refusal (exec .put { State.reset with storeMax := 11, slot := 0xFFFF#16, ser := serialA }) =
        some .storeFull := by decide +kernel

/-- The numbers of 10_state.md R30: 4 is CARD, 6 is SLOT, 8 is SSTAT. -/
theorem test_register_numbers :
    writeAccess 4 (.word 65535) = some (.write .card (.word 65535)) ∧ readAccess 6 = some (.read .slot) ∧
      readAccess 8 = some (.read .sstat) ∧ readAccess 10 = none := by decide

theorem test_step_reset :
    after (step (({ stateW1 with fac := 9#8, cerr := true, store := Store.ofBytes recordA } : State).present .reset))
      (fun t => (t.len, t.fac, t.cerr, t.store.bytes)) = some (0#8, 0#8, false, recordA) := by decide +kernel

/-! ### Witnesses: concrete states and operands that meet the hypotheses of the obligations -/

/-- A store whose slot 0 is live, slot 1 blank, slot 2 live. -/
def stateABC : State := { withStore (recordA ++ recordZ ++ recordB) with ser := serialC, slot := 1#16, en := true }
/-- A store with a bad record in slot 1. -/
def stateBad : State := { withStore (recordA ++ recordBad) with ser := serialC, slot := 1#16 }

/-- The DATA groups of W1. -/
def groupsW1 : List BitGroup :=
  [⟨false, false, false, false, true⟩, ⟨true, true, true, false, false⟩, ⟨true, false, true, false, true⟩,
    ⟨false, true, true, false, true⟩, ⟨false, true, true, false, true⟩, ⟨false, true, false, false, false⟩,
    ⟨true, true, false, false, true⟩, ⟨true, true, false, false, true⟩, ⟨false, false, true, false, false⟩]
def lrcW1 : BitGroup := ⟨false, false, false, false, true⟩

theorem witness_EncodedInstrDecodesBack : Instr.wf (.bitat 255) = true ∧ Instr.wf (.decodes 0) = true := ⟨rfl, rfl⟩

theorem witness_DecodedWordIsItsEncoding :
    decode (.command 0x12FF#16) = .ok (.bitat 255) ∧ decode (.event 0b11#2) = .ok (.append true) := ⟨rfl, rfl⟩

theorem witness_StepRunsDecodedInstr :
    (State.reset.present (PortWord.input (.command 0x1100#16))).inputs = PortWord.input (.command 0x1100#16) :: [] ∧
      decode (.command 0x1100#16) = .ok .isfull := ⟨rfl, rfl⟩

theorem witness_EventWordsDecodeByPresent :
    (State.reset.present (.event 0b10#2)).inputs = .event 0b10#2 :: [] ∧ (0b10#2)[1] = true ∧ (0b01#2)[1] = false :=
  ⟨rfl, rfl, rfl⟩

/-- The words just outside the table, and a format N word with an operand byte. -/
theorem witness_IllegalCommandOnlySetsCerr :
    (State.reset.present (.write .cmd (.word 0x0F00))).inputs = .write .cmd (.word (0x0F00#16).toNat) :: [] ∧
      (¬ LegalWord 0x0F00#16 ∧ ¬ LegalWord 0x1600#16 ∧ ¬ LegalWord 0x1FFF#16 ∧ ¬ LegalWord 0x2600#16 ∧
        ¬ LegalWord 0x2001#16) ∧
      LegalWord 0x12FF#16 ∧ LegalWord 0x2500#16 ∧ (254#8 : BitVec 8) ≠ 255#8 := by
  unfold LegalWord
  decide +kernel

theorem witness_IdleBlockKeepsState : State.reset.inputs = [] := rfl

theorem witness_AppendStoresInvertedLevel :
    ({ State.reset with len := 254#8 } : State).len ≠ 255#8 ∧ stateW1.len = 255#8 := by decide

theorem witness_IsfullAnswersCapacity :
    stateW1.len.toNat = 255 ∧ ({ State.reset with len := 254#8 } : State).len.toNat < 255 := by decide

theorem witness_BitatAnswersStoredBit :
    2 < state011.len.toNat ∧ state011.len.toNat ≤ 3 ∧ 255 < 256 ∧ stateW1.len.toNat ≤ 255 := by decide

/-- The last two free positions. -/
theorem witness_EdgesFillBufferInTimeOrder :
    let s : State := { State.reset with len := 253#8, inputs := [.event 0b11#2, .event 0b10#2, .read .cerr] }
    s.inputs = [true, false].map (fun d => .event (edgeWord d)) ++ [.read .cerr] ∧
      s.len.toNat + [true, false].length ≤ 255 := by decide

theorem witness_FullBufferIsFrozenUnderEvents :
    let s : State := { stateW1 with inputs := [.event 0b11#2, .event 0b00#2, .reset] }
    s.inputs = [0b11#2, 0b00#2].map .event ++ [.reset] ∧ s.len = 255#8 := ⟨rfl, rfl⟩

theorem witness_CaptureWrittenByProducerAndClear :
    (after (step (State.reset.present (.event 0b10#2))) fun t => (cellAt t 0, t.len)) = some (true, 1#8) ∧
      (cellAt State.reset 0, State.reset.len) = (false, 0#8) ∧
      (after (step (stateW1.present (.write .cmd (.word 0x1000)))) State.len) = some 0#8 := by decide +kernel

theorem witness_StoredBitsStayUntilCleared :
    (after (step (state011.present (.event 0b10#2))) fun t => (t.len, (List.range 4).map (cellAt t))) =
      some (4#8, [false, true, true, true]) := by decide +kernel

theorem witness_StaleCellsAreUnobservable :
    SameBelowLen State.reset { State.reset with buf := Vector.replicate 255 true } ∧
      cellAt { State.reset with buf := Vector.replicate 255 true } 0 ≠ cellAt State.reset 0 :=
  ⟨⟨rfl, fun j hj => absurd hj (Nat.not_lt_zero j)⟩, by decide +kernel⟩

theorem witness_DecodeSucceedsExactlyOnFrames : w1.length = 255 ∧ w6.length = 255 := by decide +kernel

/-- Frames with 9, no and 43 DATA groups. -/
theorem witness_DecodedPairIsThePayload :
    IsFrame w1 groupsW1 lrcW1 ∧ IsFrame w3 [] lrcW1 ∧
      IsFrame w6 (List.replicate 43 ⟨true, false, false, false, false⟩) lrcW1 := by
  refine ⟨⟨by decide, ?_, rfl, by decide +kernel⟩, ⟨by decide, ?_, rfl, by decide +kernel⟩,
    ⟨by decide, ?_, rfl, by decide +kernel⟩⟩ <;> (unfold IsData; decide +kernel)

theorem witness_LeadingOneDecidesDecode :
    24 < 25 ∧ (z 24 ++ [true] ++ z 230)[24]? = some true ∧ (z 24).length < 25 ∧ true ∉ z 24 := by decide

/-- Groups of each kind that DecodeFailuresByFirstCause speaks of, and the lengths at its bounds. -/
theorem witness_DecodeFailuresByFirstCause :
    24 < 25 ∧ [true, true, false, true].length < 5 ∧
      BitGroup.odd ⟨false, false, false, false, false⟩ = false ∧ (endGroup.odd = true ∧ endGroup ≠ startGroup) ∧
      (∀ g ∈ groupsW1, g.odd = true ∧ g.d3 = false) ∧
      (startGroup.odd = true ∧ startGroup.d3 = true ∧ startGroup ≠ endGroup) ∧
      lrcW1.odd = true ∧ true ∈ (z 169 ++ [true]) ∧ true ∉ z 170 ∧ (z 24 ++ [true] ++ z 230)[24]? = some true := by
  decide +kernel

theorem witness_FlippedParityBitIsReported :
    IsFrame w1 groupsW1 lrcW1 ∧ 0 ≤ groupsW1.length + 1 ∧ 10 ≤ groupsW1.length + 1 :=
  ⟨witness_DecodedPairIsThePayload.1, by decide, by decide⟩

theorem witness_DecodeFailsWithDecodeCodes : decodeFrame (z 255) = .failure .parityFailure := by decide +kernel

theorem witness_DecodeWritesItsResult :
    stateW1.len = 255#8 ∧ decodeFrame stateW1.buf.toList = .pair 123#8 45678#16 ∧
      decodeFrame (captured (z 255) (by decide +kernel)).buf.toList = .failure .parityFailure ∧
      State.reset.len ≠ 255#8 := by decide +kernel

theorem witness_DecodesWritesSerial :
    stateW1.len = 255#8 ∧ 8 < 9 ∧ 9 ≤ 9 ∧ decodeFrame stateW1.buf.toList = .pair 123#8 45678#16 ∧
      decodeFrame (captured (z 255) (by decide +kernel)).buf.toList = .failure .parityFailure ∧
      ({ State.reset with len := 254#8 } : State).len ≠ 255#8 := by decide +kernel

theorem witness_SerialSpellsThePair : formatSerial 255#8 65535#16 = formatSerial 255#8 65535#16 := rfl

theorem witness_CanonicalRecordParsesBack : canonicalSerial serialA = true ∧ canonicalSerial serialZ = true := by
  decide

/-- One byte string for each clause, at the bounds of its offsets. -/
theorem witness_BytesAtOffsetClassified :
    (Store.ofBytes recordA).size ≤ 12 ∧
      (11 < (Store.ofBytes recordA).size ∧ (Store.ofBytes recordA).size < 11 + 12) ∧
      0 + 12 ≤ (Store.ofBytes recordA).size ∧
      0x0A#8 ∈ recordBad.take 11 ∧ 0x0A#8 ∉ (recordA.take 11 ++ text ['X']) ∧
      (recordA = recordA.take 11 ++ [0x0A#8] ∧ 0x0A#8 ∉ recordA.take 11) ∧
      0x2C#8 ∉ (recordA.set 9 0x3B#8).take 11 ∧
      (text [',', '1'] = 0x2C#8 :: text ['1'] ∧ text ['1', ','] = text ['1'] ++ [0x2C#8] ∧ 0x2C#8 ∉ text ['1']) ∧
      (recordA.take 11 = List.replicate 0 0x20#8 ++ serialA ++ List.replicate 0 0x20#8 ++ 0x2C#8 :: 0x31#8 :: [] ∧
        0x2C#8 ∉ serialA ∧ 0 < 0 + serialA.length + 0 ∧ serialA.head? ≠ some 0x20#8 ∧
        serialA.getLast? ≠ some 0x20#8) ∧
      (text [' ', ' ', ',', '0'] = List.replicate 1 0x20#8 ++ [] ++ List.replicate 1 0x20#8 ++ 0x2C#8 :: 0x30#8 :: [] ∧
        0 < 1 + ([] : Bytes).length + 1) := by decide +kernel

/-- Slots below `k` that parse to other serials. -/
theorem witness_no_match : NoMatchBelow stateABC.store serialC 3 ∧ NoMatchBelow stateBad.store serialC 1 ∧
    NoMatchBelow stateABC.store blankSerial 1 ∧ NoMatchBelow stateABC.store serialA 0 := by
  refine ⟨fun j hj => ?_, fun j hj => ?_, fun j hj => ?_, fun j hj => absurd hj (Nat.not_lt_zero j)⟩
  · interval_cases j
    · exact ⟨serialA, true, by decide +kernel, by decide⟩
    · exact ⟨serialZ, false, by decide +kernel, by decide⟩
    · exact ⟨serialB, false, by decide +kernel, by decide⟩
  · interval_cases j
    exact ⟨serialA, true, by decide +kernel, by decide⟩
  · interval_cases j
    exact ⟨serialA, true, by decide +kernel, by decide⟩

theorem witness_LookupAnswersFirstDecidingSlot :
    ({ stateABC with medium := .absent } : State).medium = .absent ∧
      ({ stateABC with medium := .unopenable } : State).medium = .unopenable ∧ stateABC.medium = .ok ∧
      (NoMatchBelow stateABC.store serialA 0 ∧ parseAt stateABC.store (12 * 0) = .record serialA true) ∧
      (NoMatchBelow stateABC.store stateABC.ser 3 ∧ parseAt stateABC.store (12 * 3) = .failure .eof) ∧
      (NoMatchBelow stateBad.store stateBad.ser 1 ∧ parseAt stateBad.store (12 * 1) = .failure .recordTooShort) :=
  ⟨rfl, rfl, rfl, ⟨witness_no_match.2.2.2, by decide +kernel⟩, ⟨witness_no_match.1, by decide +kernel⟩,
    ⟨witness_no_match.2.1, by decide +kernel⟩⟩

theorem witness_GetReadsTheSlot :
    stateABC.medium = .ok ∧ stateABC.store.size ≤ 12 * (3#16).toNat ∧ 12 * (2#16).toNat < stateABC.store.size ∧
      parseAt stateABC.store (12 * (2#16).toNat) = .record serialB false ∧
      parseAt stateBad.store (12 * stateBad.slot.toNat) = .failure .recordTooShort := by decide +kernel

/-- A short serial, each medium, a slot past the end, the end as a slot, the append value, and a full medium. -/
theorem witness_PutWritesOneRecord :
    (text ['1', '2']).length ≠ 9 ∧ stateABC.ser.length = 9 ∧ stateABC.medium = .ok ∧
      (4#16 ≠ 0xFFFF#16 ∧ stateABC.store.size < 12 * (4#16).toNat) ∧
      (12 * (3#16).toNat ≤ stateABC.store.size ∧ 12 * (3#16).toNat + 12 ≤ stateABC.storeMax.val) ∧
      (stateABC.store.size ≤ stateABC.store.size ∧ stateABC.store.mem.wf = true) ∧
      ({ stateABC with storeMax := 47 } : State).storeMax.val < stateABC.store.size + 12 := by decide +kernel

theorem witness_inv : Inv stateABC ∧ Inv { withStore recordA with ser := serialC } ∧
    Inv { withStore recordA with ser := serialC, storeMax := 23 } ∧ Inv stateBad := by
  refine ⟨?_, ?_, ?_, ?_⟩ <;> constructor <;> decide +kernel

theorem witness_no_match_one :
    NoMatchBelow (withStore recordA).store serialC 1 ∧ NoMatchBelow (withStore recordA).store blankSerial 1 := by
  refine ⟨fun j hj => ?_, fun j hj => ?_⟩ <;> interval_cases j <;>
    exact ⟨serialA, true, by decide +kernel, by decide⟩

/-- A stored serial, a bad record, a short serial, a blank slot to reuse, and an append with and without room. -/
theorem witness_InsertReusesOrAppends :
    (parseAt stateABC.store (12 * 0) = .record serialA true ∧
      parseAt stateBad.store (12 * 1) = .failure .recordTooShort ∧
      parseAt stateABC.store (12 * 3) = .failure .eof ∧ (text ['1', '2']).length ≠ 9) ∧
      (NoMatchBelow stateABC.store stateABC.ser 3 ∧ stateABC.ser.length = 9 ∧ Inv stateABC ∧
        NoMatchBelow stateABC.store blankSerial 1 ∧ parseAt stateABC.store (12 * 1) = .record blankSerial false) ∧
      (NoMatchBelow (withStore recordA).store serialC 1 ∧ NoMatchBelow (withStore recordA).store blankSerial 1 ∧
        parseAt (withStore recordA).store (12 * 1) = .failure .eof ∧ serialC.length = 9 ∧
        Inv { withStore recordA with ser := serialC } ∧ (withStore recordA).store.size + 12 ≤ 786420 ∧
        Inv { withStore recordA with ser := serialC, storeMax := 23 } ∧ 23 < (withStore recordA).store.size + 12) :=
  ⟨by decide +kernel, ⟨witness_no_match.1, by decide, witness_inv.1, witness_no_match.2.2.1, by decide +kernel⟩,
    ⟨witness_no_match_one.1, witness_no_match_one.2, by decide +kernel, by decide, witness_inv.2.1, by decide +kernel,
      witness_inv.2.2.1, by decide +kernel⟩⟩

theorem witness_EnumVisitsEveryParsedRecord :
    (ParsesTo stateABC.store [(serialA, true), (serialZ, false), (serialB, false)] ∧
      parseAt stateABC.store (12 * 3) = .failure .eof) ∧
      (ParsesTo stateBad.store [(serialA, true)] ∧ parseAt stateBad.store (12 * 1) = .failure .recordTooShort) ∧
      stateABC.medium = .ok := by
  refine ⟨⟨fun k r hk => ?_, by decide +kernel⟩, ⟨fun k r hk => ?_, by decide +kernel⟩, rfl⟩
  · have hlt : k < 3 := by
      by_contra hge
      rw [List.getElem?_eq_none (by simp only [List.length_cons, List.length_nil]; omega)] at hk
      simp at hk
    interval_cases k <;>
      (obtain rfl := Option.some.inj hk; decide +kernel)
  · have hlt : k < 1 := by
      by_contra hge
      rw [List.getElem?_eq_none (by simp only [List.length_cons, List.length_nil]; omega)] at hk
      simp at hk
    interval_cases k
    obtain rfl := Option.some.inj hk
    decide +kernel

theorem witness_DeleteWritesTombstone :
    serialZ = List.replicate 9 0x5A#8 ∧ stateABC.medium = .ok ∧
      (4#16 ≠ 0xFFFF#16 ∧ stateABC.store.size < 12 * (4#16).toNat) ∧
      (12 * stateABC.slot.toNat ≤ stateABC.store.size ∧ 12 * stateABC.slot.toNat + 12 ≤ stateABC.storeMax.val) ∧
      stateABC.store.mem.wf = true ∧
      ({ stateABC with storeMax := 47 } : State).storeMax.val < stateABC.store.size + 12 := by decide +kernel

theorem witness_InsertedSerialIsLookedUp :
    Inv stateABC ∧ canonicalSerial stateABC.ser = true ∧
      (after (exec .insert stateABC) State.sstat) = some .success :=
  ⟨witness_inv.1, by decide, by decide +kernel⟩

theorem witness_PutRecordIsGotBack :
    stateABC.store.mem.wf = true ∧ canonicalSerial stateABC.ser = true ∧ stateABC.slot ≠ 0xFFFF#16 ∧
      (after (exec .put stateABC) State.sstat) = some .success := by decide +kernel

theorem witness_holds : HoldsRecords stateABC.store [(serialA, true), (serialZ, false), (serialB, false)] := by
  constructor <;> decide +kernel

/-- INSERT at the blank slot 1 and, without one, at the end; PUT and DELETE at slot 1 and at the append value. -/
theorem witness_RecordsNeverShift :
    HoldsRecords stateABC.store [(serialA, true), (serialZ, false), (serialB, false)] ∧
      canonicalSerial stateABC.ser = true ∧ stateABC.store.size ≤ stateABC.storeMax.val ∧
      (1 = [(serialA, true), (serialZ, false), (serialB, false)].findIdx (fun q => q.1 == List.replicate 9 0x5A#8) ∧
        2 = [(serialA, true), (serialB, false)].findIdx (fun q => q.1 == List.replicate 9 0x5A#8)) ∧
      (12 * 1 = putOffset stateABC.store stateABC.slot ∧ 12 * 3 = putOffset stateABC.store 0xFFFF#16) ∧
      [Instr.insert, .put, .delete].map (fun i => after (exec i stateABC) State.sstat) =
        [some .success, some .success, some .success] :=
  ⟨witness_holds, by decide, by decide +kernel, by decide, by decide +kernel, by decide +kernel⟩

/-- Slot 2 of stateABC is deleted and the serial of stateABC inserted: it goes to the first blank slot, 1. -/
theorem witness_DeletedSlotIsReused :
    HoldsRecords stateABC.store [(serialA, true), (serialZ, false), (serialB, false)] ∧
      stateABC.store.size ≤ stateABC.storeMax.val ∧ stateABC.medium = .ok ∧ (2#16).toNat < 3 ∧
      (after (exec .delete { stateABC with slot := 2#16 }) State.sstat) = some .success ∧
      canonicalSerial serialC = true ∧ serialC ≠ List.replicate 9 0x5A#8 ∧
      (after ((exec .insert { stateABC with store := Store.ofBytes (recordA ++ recordZ ++ recordZ), slot := 2#16 }))
        State.slot) = some 1#16 ∧
      ∀ r ∈ [(serialA, true), (serialZ, false), (serialB, false)], r.1 ≠ serialC :=
  ⟨witness_holds, by decide +kernel, rfl, by decide, by decide +kernel, by decide, by decide,
    by decide +kernel, by decide⟩

theorem witness_EveryStepKeepsInv : Inv stateABC ∧ Inv stateBad ∧
    step (stateABC.present (.read .cerr)) = .next { stateABC with reads := [(.cerr, .word 0)] } :=
  ⟨witness_inv.1, witness_inv.2.2.2, rfl⟩

theorem witness_ResetInput : (stateABC.present .reset).inputs = .reset :: [] := rfl

theorem witness_OnlyTheirCommandsWriteRegisters :
    (after (exec (.decodes 9) stateW1) fun t => (t.fac, t.ser)) = some (123#8, serialA) ∧
      (stateW1.fac, stateW1.ser) = (0#8, []) ∧
      (after (exec .insert stateABC) fun t => (t.slot, t.store.bytes)) =
        some (1#16, recordA ++ serialC ++ text [',', '1', '\n'] ++ recordB) := by decide +kernel

/-- A failing command of each kind. -/
theorem witness_FailingCommandsArePrecise :
    [Instr.lookup, .get, .insert, .enum].map (fun i => after (exec i stateBad) State.sstat) =
        [some .recordTooShort, some .recordTooShort, some .recordTooShort, some .recordTooShort] ∧
      [Instr.put, .delete].map (fun i => after (exec i { stateBad with slot := 3#16 }) State.sstat) =
        [some .eof, some .eof] ∧
      (after (exec .enum { stateBad with medium := .absent }) State.sstat) = some .doesNotExist ∧
      (captured (z 255) (by decide +kernel)).len = 255#8 ∧
      (after (exec .decode (captured (z 255) (by decide +kernel))) State.wstat) = some .parityFailure ∧
      (after (exec .decode State.reset) State.cerr) = some true := by decide +kernel

theorem witness_InstructionsCompleteWithRoom : stateABC.store.size + 12 ≤ stateABC.storeMax.val ∧
    ({ stateABC with storeMax := 48 } : State).store.size + 12 ≤
      ({ stateABC with storeMax := 48 } : State).storeMax.val := by decide +kernel

/-- Two steps of a run that starts with CERR set and has no reset. -/
theorem witness_CerrStaysUntilReset :
    let s : State := { State.reset with cerr := true, inputs := [.event 0b11#2, .read .cerr, .reset] }
    s.cerr = true ∧ Input.reset ∉ s.inputs.take 2 ∧
      (after (Safety.run 2 s) fun t => (t.inputs, t.reads)) = some ([.reset], [(.cerr, .word 1)]) := by decide +kernel

/-- A good run that decodes a full buffer. -/
theorem witness_GoodRunHasNoCommandFault :
    let s : State := { stateW1 with inputs := [.write .cmd (.word 0x1300), .write .cmd (.word 0x1000)] }
    s.inputs = .write .cmd (.word (0x1300#16).toNat) :: [.write .cmd (.word 0x1000)] ∧
      Input.reset ∉ s.inputs.take 2 ∧ (after (Safety.run 2 s) State.cerr) = some false := by decide +kernel

theorem witness_StoreOnlyGrowsBySuccess :
    (after (step (({ stateABC with slot := 3#16 } : State).present (.write .cmd (.word 0x2200))))
      fun t => (t.sstat, t.store.size)) = some (.success, 48) ∧ stateABC.store.size = 36 := by decide +kernel

/-- A refused PUT and DELETE at the end of a full medium, a refused INSERT without a blank slot, and the three host
accesses. -/
theorem witness_StepRefusesOnlyWhereSpecDoes :
    (stateABC.medium = .ok ∧ stateABC.ser.length = 9 ∧ 36 ≤ stateABC.store.size ∧ 47 < 36 + 12 ∧
      putOffset stateABC.store 3#16 = 36) ∧
      ((withStore recordA).medium = .ok ∧ serialC.length = 9 ∧ (withStore recordA).store.size = 12 ∧ 23 < 12 + 12 ∧
        NoMatchBelow (withStore recordA).store serialC 1 ∧ NoMatchBelow (withStore recordA).store blankSerial 1 ∧
        parseAt (withStore recordA).store (12 * 1) = .failure .eof) ∧
      [0x2200, 0x2500].map (fun w => refusal (step
          (({ stateABC with slot := 3#16, storeMax := 47 } : State).present (.write .cmd (.word w))))) =
        [some .storeFull, some .storeFull] ∧
      refusal (step (({ withStore recordA with ser := serialC, storeMax := 23 } : State).present
        (.write .cmd (.word 0x2300)))) = some .storeFull ∧
      [Input.write .sstat (.word 0), .write .fac (.word 256), .read .cmd].map
          (fun i => refusal (step (State.reset.present i))) =
        [some .readOnlyRegister, some .portCannotCarry, some .writeOnlyRegister] :=
  ⟨by decide +kernel, ⟨rfl, by decide, by decide +kernel, by decide, witness_no_match_one.1, witness_no_match_one.2,
    by decide +kernel⟩, by decide +kernel, by decide +kernel, by decide +kernel⟩

/-- The largest value of each writable register, a legal and an illegal command word, a read-only register, and a value
that is too wide. -/
theorem witness_HostWritesOperandRegisters :
    (State.reset.present (.write .fac (.word 255))).inputs = .write .fac (.word 255) :: [] ∧ 255 < 256 ∧
      65535 < 65536 ∧ (List.replicate 15 0x41#8).length ≤ 15 ∧ 1 < 2 ∧
      (hostWritable .fac = true ∧ Reg.accepts .fac (.word 256) = false) ∧
      (hostWritable .ser = true ∧ Reg.accepts .ser (.text (List.replicate 16 0x41#8)) = false) ∧
      (State.reset.present (.write .wstat (.word 0))).inputs = .write .wstat (.word 0) :: [] ∧
      (decode (.command (BitVec.ofNat 16 0x1500)) = .ok .format ∧
        (State.reset.present (.write .cmd (.word 0x1500))).inputs = .write .cmd (.word 0x1500) :: []) ∧
      decode (.command (BitVec.ofNat 16 65535)) = .error .illegalOpcode := by
  refine ⟨rfl, ?_, ?_, ?_, ?_, ?_, ?_, rfl, ⟨rfl, rfl⟩, rfl⟩ <;> decide

theorem witness_HostReadsReturnRegisters :
    (stateABC.present (.read .ser)).inputs = .read .ser :: [] ∧ (stateABC.present (.read .cmd)).inputs = .read .cmd :: [] :=
  ⟨rfl, rfl⟩

theorem witness_EventsCommuteWithStoreCommands :
    [Instr.format, .lookup, .get, .put, .insert, .enum, .delete].map
        (fun i => (after (exec i stateABC) fun t => t.len)) =
      [some 0#8, some 0#8, some 0#8, some 0#8, some 0#8, some 0#8, some 0#8] := by decide +kernel

/-- W1 is captured and its card is stored in slot 0. -/
theorem witness_SwipedCardIsFoundInStore :
    let s : State := { stateW1 with store := Store.ofBytes recordA }
    s.len = 255#8 ∧ IsFrame s.buf.toList groupsW1 lrcW1 ∧ 9 ≤ 9 ∧ s.medium = .ok ∧
      123#8 = BitVec.ofNat 8 (payload groupsW1 / 2 ^ 17) ∧ 45678#16 = BitVec.ofNat 16 (payload groupsW1 / 2) ∧
      NoMatchBelow s.store (formatSerial 123#8 45678#16) 0 ∧
      parseAt s.store (12 * 0) = .record (formatSerial 123#8 45678#16) true :=
  ⟨rfl, witness_DecodedPairIsThePayload.1, le_rfl, rfl, by decide +kernel, by decide +kernel,
    fun j hj => absurd hj (Nat.not_lt_zero j), by decide +kernel⟩

/-- The register space's first and last number, the first beyond it, and the read-only registers. -/
theorem witness_RegisterNumbersNameRegisters :
    Reg.ofNumber 0 = some .cmd ∧ Reg.cerr.number = 9 ∧ readAccess 0 = some (.read .cmd) ∧
      readAccess 1 = some (.read .bval) ∧ readAccess 9 = some (.read .cerr) ∧ readAccess 10 = none ∧
      [1, 2, 8, 9].map (fun no => writeAccess no (.word 0)) =
        [Reg.bval, .wstat, .sstat, .cerr].map (fun r => some (.write r (.word 0))) ∧
      (Reg.ofNumber 3 = some .fac ∧ writeAccess 3 (.word 255) = some (.write .fac (.word 255))) ∧
      (Reg.ofNumber 7 = some .en ∧ writeAccess 7 (.word 1) = some (.write .en (.word 1))) := by decide

/-- The medium is taken out and put back. -/
theorem witness_MediumInputSetsCondition :
    (stateABC.present (.medium .absent)).inputs = .medium .absent :: [] ∧
      (after (step (stateABC.present (.medium .absent))) State.medium) = some .absent ∧
      (after (step (({ stateABC with medium := .absent } : State).present (.medium .ok))) State.medium) = some .ok :=
  ⟨rfl, rfl, rfl⟩

end Sys2Proof.Tests
end

section
/-! PROOFS. What one instruction can do, said once over all thirteen, and what that says of each field. -/

namespace Sys2Proof.Machine

open Sys2Proof.Safety

/-! ### The cases of an instruction -/

theorem full_iff {s : State} : s.full = true ↔ s.len = 255#8 := by simp [State.full]

theorem full_eq_false_iff {s : State} : s.full = false ↔ s.len ≠ 255#8 := by simp [State.full]

theorem bitValue_ne_three (b : Bool) : bitValue b ≠ 3#2 := by cases b <;> decide

theorem bitAt_ne_three (s : State) (pos : Nat) : bitAt s pos ≠ 3#2 := by
  unfold bitAt
  split
  · exact bitValue_ne_three _
  · decide

/-- The two commands that read a full capture, and fault on one that is not (41_wiegand_decoder.md R140). -/
def DecodeCommand (i : Instr) : Prop := i = .decode ∨ ∃ cap, i = .decodes cap

/-- The store commands that change no operand when they fail; DELETE is not one of them (60_exceptions.md R208). -/
def PreciseStoreCommand (i : Instr) : Prop := i = .lookup ∨ i = .get ∨ i = .put ∨ i = .insert ∨ i = .enum

/-- Everything an instruction that answers a next state can have done: the arms of `exec` with the branches of each. -/
inductive ExecCase (s : State) : Instr → State → Prop where
  | dropped (level : Bool) (hfull : s.len = 255#8) : ExecCase s (.append level) (s.driveAppOk false)
  | stored (level : Bool) (hroom : s.len ≠ 255#8) : ExecCase s (.append level)
      ({ setCell s s.len.toNat (!level) with len := s.len + 1#8 }.driveAppOk true)
  | clear : ExecCase s .clear { s with len := 0#8 }
  | isfull : ExecCase s .isfull { s with bval := bitValue s.full }
  | bitat (pos : Nat) : ExecCase s (.bitat pos) { s with bval := bitAt s pos }
  | notFull (i : Instr) (hroom : s.len ≠ 255#8) (hi : DecodeCommand i) : ExecCase s i s.faultCerr
  | decodeFailed (i : Instr) (c : WCode) (hfull : s.len = 255#8) (hi : DecodeCommand i) : ExecCase s i (s.returnW c)
  | decoded (f : BitVec 8) (c : BitVec 16) (hfull : s.len = 255#8) (hr : decodeFrame (capture s) = .pair f c) :
      ExecCase s .decode ((s.returnW .success).setPair f c)
  | decodedSerial (cap : Nat) (f : BitVec 8) (c : BitVec 16) (hfull : s.len = 255#8)
      (hcap : Config.serialLen ≤ cap) (hr : decodeFrame (capture s) = .pair f c) :
      ExecCase s (.decodes cap) { (s.returnW .success).setPair f c with ser := formatSerial f c }
  | format : ExecCase s .format { s with ser := formatSerial s.fac s.card }
  | storeFailed (i : Instr) (c : SCode) (hc : c ≠ .success) (hi : PreciseStoreCommand i) : ExecCase s i (s.returnS c)
  | lookup (k : Nat) (enabled : Bool) (hm : s.medium = .ok) (hs : scan s.store s.ser = .found s.ser k enabled) :
      ExecCase s .lookup { s with sstat := .success, slot := BitVec.ofNat 16 k, en := enabled }
  | get (serial : Bytes) (enabled : Bool) (hm : s.medium = .ok)
      (hp : parseAt s.store (slotOffset s.slot) = .record serial enabled) :
      ExecCase s .get { s with sstat := .success, ser := serial, en := enabled }
  | put (st : Store) (hst : putBySlot s.medium s.storeMax.val s.store s.slot s.ser s.en = .written st) :
      ExecCase s .put ((s.setStore st).returnS .success)
  | insert (target : BitVec 16) (newslot : Nat) (st : Store) (hm : s.medium = .ok)
      (hs : scan s.store s.ser = .failure .recordNotFound)
      (htarget : (∃ enabled, scan s.store blankSerial = .found blankSerial newslot enabled ∧
          target = BitVec.ofNat 16 newslot) ∨
        (scan s.store blankSerial = .failure .recordNotFound ∧ target = Config.slotAppend ∧
          newslot = s.store.size / Config.recordLen))
      (hst : putBySlot s.medium s.storeMax.val s.store target s.ser s.en = .written st) :
      ExecCase s .insert { s with store := st, sstat := .success, slot := BitVec.ofNat 16 newslot }
  | enum (hm : s.medium = .ok) : ExecCase s .enum
      { s with sstat := (enumFrom s.store (scanPasses s.store) 0).2,
               visits := s.visits ++ (enumFrom s.store (scanPasses s.store) 0).1 }
  | deleteFailed (c : SCode) (hc : c ≠ .success) : ExecCase s .delete ((s.setRecord blankSerial false).returnS c)
  | delete (st : Store) (hst : putBySlot s.medium s.storeMax.val s.store s.slot blankSerial false = .written st) :
      ExecCase s .delete (((s.setRecord blankSerial false).setStore st).returnS .success)

theorem execAppend_case {s t : State} {level : Bool} (h : execAppend level s = .next t) :
    ExecCase s (.append level) t := by
  obtain rfl : appendBit (logicalBit level) s = t := by simpa [execAppend] using h
  unfold appendBit
  split
  · next hfull => exact .dropped level (full_iff.1 hfull)
  · next hfull => exact .stored level (full_eq_false_iff.1 (by simpa using hfull))

theorem execDecode_case {s t : State} (h : execDecode s = .next t) : ExecCase s .decode t := by
  unfold execDecode at h
  split at h
  · next hfull =>
    cases hr : decodeFrame (capture s) with
    | pair f c =>
      obtain rfl : (s.returnW .success).setPair f c = t := by simpa [hr, storeDecode] using h
      exact .decoded f c (full_iff.1 hfull) hr
    | failure c =>
      obtain rfl : s.returnW c = t := by simpa [hr, storeDecode] using h
      exact .decodeFailed _ c (full_iff.1 hfull) (.inl rfl)
  · next hfull =>
    obtain rfl : s.faultCerr = t := by simpa using h
    exact .notFull _ (full_eq_false_iff.1 (by simpa using hfull)) (.inl rfl)

theorem execDecodes_case {s t : State} {cap : Nat} (h : execDecodes cap s = .next t) :
    ExecCase s (.decodes cap) t := by
  have hi : DecodeCommand (.decodes cap) := .inr ⟨cap, rfl⟩
  unfold execDecodes at h
  split at h
  · next hfull =>
    split at h
    · obtain rfl : s.returnW .bufferTooSmall = t := by simpa using h
      exact .decodeFailed _ _ (full_iff.1 hfull) hi
    next hcap =>
    cases hr : decodeFrame (capture s) with
    | pair f c =>
      obtain rfl : { (s.returnW .success).setPair f c with ser := formatSerial f c } = t := by
        simpa [hr, storeDecodeSerial] using h
      exact .decodedSerial cap f c (full_iff.1 hfull) (Nat.le_of_not_lt hcap) hr
    | failure c =>
      obtain rfl : s.returnW c = t := by simpa [hr, storeDecodeSerial] using h
      exact .decodeFailed _ c (full_iff.1 hfull) hi
  · next hfull =>
    obtain rfl : s.faultCerr = t := by simpa using h
    exact .notFull _ (full_eq_false_iff.1 (by simpa using hfull)) hi

/-- The cases of an instruction (30_encoding.md R74). -/
theorem exec_cases {i : Instr} {s t : State} (h : exec i s = .next t) : ExecCase s i t := by
  cases i with
  | append level => exact execAppend_case h
  | clear =>
    obtain rfl : { s with len := 0#8 } = t := by simpa [exec, execClear] using h
    exact .clear
  | isfull =>
    obtain rfl : { s with bval := bitValue s.full } = t := by simpa [exec, execIsfull] using h
    exact .isfull
  | bitat pos =>
    obtain rfl : { s with bval := bitAt s pos } = t := by simpa [exec, execBitat] using h
    exact .bitat pos
  | decode => exact execDecode_case h
  | decodes cap => exact execDecodes_case h
  | format =>
    obtain rfl : { s with ser := formatSerial s.fac s.card } = t := by simpa [exec, execFormat] using h
    exact .format
  | lookup =>
    obtain ⟨c, hc, rfl⟩ | ⟨k, enabled, hm, hs, rfl⟩ := execLookup_cases h
    · exact .storeFailed _ c hc (by simp [PreciseStoreCommand])
    · exact .lookup k enabled hm hs
  | get =>
    obtain ⟨c, hc, rfl⟩ | ⟨serial, enabled, hm, hp, rfl⟩ := execGet_cases h
    · exact .storeFailed _ c hc (by simp [PreciseStoreCommand])
    · exact .get serial enabled hm hp
  | put =>
    obtain ⟨c, hc, rfl⟩ | ⟨st, hst, rfl⟩ := putRegisters_cases h
    · exact .storeFailed _ c hc (by simp [PreciseStoreCommand])
    · exact .put st hst
  | insert =>
    obtain ⟨c, hc, rfl⟩ | ⟨hm, hs, target, newslot, st, htarget, hst, rfl⟩ := execInsert_cases h
    · exact .storeFailed _ c hc (by simp [PreciseStoreCommand])
    · exact .insert target newslot st hm hs htarget hst
  | enum =>
    obtain ⟨c, hc, rfl⟩ | ⟨hm, rfl⟩ := execEnum_cases h
    · exact .storeFailed _ c hc (by simp [PreciseStoreCommand])
    · exact .enum hm
  | delete =>
    obtain ⟨c, hc, rfl⟩ | ⟨st, hst, rfl⟩ := putRegisters_cases (s := s.setRecord blankSerial false) h
    · exact .deleteFailed c hc
    · exact .delete st hst


/-- Settles O44: the command words that fault or fail are told apart by their class, the others by their constructor. -/
theorem onlyTheirCommandsWriteRegisters : Obligations.OnlyTheirCommandsWriteRegisters := by
  intro i s t h
  cases exec_cases h
  case notFull hroom hi => simpa using fun _ => ⟨hi, hroom⟩
  case decodeFailed c _ hi => obtain rfl | ⟨cap, rfl⟩ := hi <;> simp
  case storeFailed c _ hi =>
    obtain rfl | rfl | rfl | rfl | rfl := hi <;> simp
  all_goals simp

/-! ### Which fields an instruction keeps -/

theorem exec_keeps_inputs {i : Instr} {s t : State} (h : exec i s = .next t) : t.inputs = s.inputs := by
  cases exec_cases h <;> rfl

theorem exec_keeps_storeMax {i : Instr} {s t : State} (h : exec i s = .next t) : t.storeMax = s.storeMax := by
  cases exec_cases h <;> rfl

/-- No instruction clears CERR (10_state.md R40). -/
theorem exec_keeps_cerr {i : Instr} {s t : State} (h : exec i s = .next t) (hs : s.cerr = true) : t.cerr = true := by
  cases exec_cases h <;> simp [hs]

/-- BVAL gets a bit or NODATA, or stays (10_state.md R32). -/
theorem exec_bval {i : Instr} {s t : State} (h : exec i s = .next t) : t.bval = s.bval ∨ t.bval ≠ 3#2 := by
  cases exec_cases h
  case isfull => exact .inr (bitValue_ne_three _)
  case bitat pos => exact .inr (bitAt_ne_three s pos)
  all_goals exact .inl rfl

/-- SER gets a serial of at most 9 bytes, or stays (10_state.md R36). -/
theorem exec_ser {i : Instr} {s t : State} (h : exec i s = .next t) :
    t.ser = s.ser ∨ t.ser.length ≤ Config.serialLen := by
  cases exec_cases h
  case decodedSerial => exact .inr (length_formatSerial _ _).le
  case format => exact .inr (length_formatSerial _ _).le
  case get serial enabled hm hp => exact .inr (parseAt_record hp).2
  case deleteFailed => exact .inr length_blankSerial.le
  case delete => exact .inr length_blankSerial.le
  all_goals exact .inl rfl

/-- The store gets one record, or stays (42_cardstore.md R188). -/
theorem exec_store {i : Instr} {s t : State} (h : exec i s = .next t) : t.store = s.store ∨ StoreWrite s t.store := by
  cases exec_cases h
  case put st hst => exact .inr (putBySlot_storeWrite hst)
  case insert st _ _ _ hst => exact .inr (putBySlot_storeWrite hst)
  case delete st hst => exact .inr (putBySlot_storeWrite hst)
  all_goals exact .inl rfl

/-! ### The invariant -/

/-- What a step may do to the fields that `Inv` speaks of. -/
theorem inv_of_fields {s t : State} (hs : Inv s) (hstore : t.store = s.store ∨ StoreWrite s t.store)
    (hmax : t.storeMax = s.storeMax) (hser : t.ser = s.ser ∨ t.ser.length ≤ Config.serialMax)
    (hbval : t.bval = s.bval ∨ t.bval ≠ 3#2) : Inv t := by
  obtain ⟨hwf, hbelow, hfits, hserial, hlegal⟩ := hs
  have hst : t.store.mem.wf = true ∧ t.store.mem.below t.store.size = true ∧ t.store.size ≤ t.storeMax.val := by
    rw [hmax]
    obtain heq | hwrite := hstore
    · rw [heq]
      exact ⟨hwf, hbelow, hfits⟩
    · obtain ⟨hwf', hbelow', hfits', -⟩ := hwrite.keeps hwf hbelow hfits
      exact ⟨hwf', hbelow', hfits'⟩
  refine ⟨hst.1, hst.2.1, hst.2.2, ?_, ?_⟩
  · exact hser.elim (fun heq => heq ▸ hserial) id
  · exact hbval.elim (fun heq => heq ▸ hlegal) id

theorem exec_keeps_inv {i : Instr} {s t : State} (hs : Inv s) (h : exec i s = .next t) : Inv t :=
  inv_of_fields hs (exec_store h) (exec_keeps_storeMax h)
    ((exec_ser h).imp_right fun hlen => hlen.trans (by decide)) (exec_bval h)

/-- The invariant says nothing of the inputs to come. -/
theorem inv_with_inputs {s : State} (hs : Inv s) (rest : List Input) : Inv { s with inputs := rest } :=
  inv_of_fields hs (.inl rfl) rfl (.inl rfl) (.inl rfl)

/-- A host write that the port carries fits its register (10_state.md R36). -/
theorem loadRegister_keeps_inv {r : Reg} {v : PortValue} {s : State} (hs : Inv s) (ha : r.accepts v = true) :
    Inv (loadRegister r v s) := by
  unfold loadRegister
  split
  -- SER is the one register of the five whose width the invariant states.
  case h_3 bs => exact inv_of_fields hs (.inl rfl) rfl (.inr (of_decide_eq_true ha)) (.inl rfl)
  case h_6 => exact hs
  all_goals exact inv_of_fields hs (.inl rfl) rfl (.inl rfl) (.inl rfl)

/-- Settles O39, by the cases of a step. -/
theorem everyStepKeepsInv : Obligations.EveryStepKeepsInv := by
  intro s t hs h
  cases step_cases h with
  | idle _ ht => exact ht ▸ hs
  | instr p rest i _ _ ht => exact exec_keeps_inv (inv_with_inputs hs rest) ht
  | noCard ev rest _ ht => exact ht ▸ inv_with_inputs hs rest
  | illegal w rest _ _ ht => exact ht ▸ inv_of_fields hs (.inl rfl) rfl (.inl rfl) (.inl rfl)
  | load r v rest _ _ ha ht => exact ht ▸ loadRegister_keeps_inv (inv_with_inputs hs rest) ha
  | read r v rest _ _ ht => exact ht ▸ inv_of_fields hs (.inl rfl) rfl (.inl rfl) (.inl rfl)
  | medium m rest _ ht => exact ht ▸ inv_of_fields hs (.inl rfl) rfl (.inl rfl) (.inl rfl)
  | reset rest _ ht => exact ht ▸ inv_of_fields hs (.inl rfl) rfl (.inr (Nat.zero_le _)) (.inr (by simp))

/-- Settles O40. -/
theorem resetStateHasInv : Obligations.ResetStateHasInv :=
  ⟨rfl, rfl, Nat.zero_le _, Nat.zero_le _, by decide⟩

/-- Settles O41: every field is written out in `State.reset`. -/
theorem resetStateRegisters : Obligations.ResetStateRegisters :=
  ⟨rfl, rfl, rfl, rfl, rfl, rfl, rfl, rfl, rfl, rfl, rfl, rfl⟩

end Sys2Proof.Machine
end

section
/-! PROOFS. Runs and words: who writes the capture, and how long CERR stays. -/

namespace Sys2Proof.Machine

open Sys2Proof.Safety

/-! ### What a register load leaves alone -/

section
variable (r : Reg) (v : PortValue) (s : State)

@[simp] theorem loadRegister_buf : (loadRegister r v s).buf = s.buf := by unfold loadRegister; split <;> rfl
@[simp] theorem loadRegister_len : (loadRegister r v s).len = s.len := by unfold loadRegister; split <;> rfl
@[simp] theorem loadRegister_cerr : (loadRegister r v s).cerr = s.cerr := by unfold loadRegister; split <;> rfl
@[simp] theorem loadRegister_inputs : (loadRegister r v s).inputs = s.inputs := by unfold loadRegister; split <;> rfl

end

/-- A step takes the first input, if there is one (20_memory.md R60). -/
theorem step_inputs {s t : State} (h : step s = .next t) : t.inputs = s.inputs.tail := by
  cases step_cases h with
  | idle hin ht => rw [ht, hin]; rfl
  | instr p rest i hin _ ht => rw [exec_keeps_inputs ht, hin]; rfl
  | noCard ev rest hin ht => rw [ht, hin]; rfl
  | illegal w rest hin _ ht => rw [ht, hin]; rfl
  | load r v rest hin _ _ ht => rw [ht, loadRegister_inputs, hin]; rfl
  | read r v rest hin _ ht => rw [ht, hin]; rfl
  | medium m rest hin ht => rw [ht, hin]; rfl
  | reset rest hin ht => rw [ht, hin]; rfl

/-! ### CERR -/

/-- Only the reset input clears CERR (10_state.md R40). -/
theorem step_keeps_cerr {s t : State} (h : step s = .next t) (hs : s.cerr = true) (hr : s.inputs.head? ≠ some .reset) :
    t.cerr = true := by
  cases step_cases h with
  | instr p rest i _ _ ht => exact exec_keeps_cerr ht hs
  | load r v rest _ _ _ ht => rw [ht, loadRegister_cerr]; exact hs
  | illegal w rest _ _ ht => rw [ht]
  | reset rest hin _ => exact absurd (by rw [hin]; rfl) hr
  | idle _ ht => rw [ht]; exact hs
  | noCard ev rest _ ht => rw [ht]; exact hs
  | read r v rest _ _ ht => rw [ht]; exact hs
  | medium m rest _ ht => rw [ht]; exact hs

/-- Settles O47, by induction on the number of steps. -/
theorem cerrStaysUntilReset : Obligations.CerrStaysUntilReset := by
  intro n
  induction n with
  | zero =>
    intro s t h hs _
    obtain rfl : s = t := by simpa [run] using h
    exact hs
  | succ n ih =>
    intro s u h hs hr
    obtain ⟨t, hstep, hrun⟩ := run_succ_next h
    have hhead : s.inputs.head? ≠ some .reset ∧ Input.reset ∉ t.inputs.take n := by
      rw [step_inputs hstep]
      cases hin : s.inputs with
      | nil => simp
      | cons i rest =>
        simp only [hin, List.take_succ_cons, List.mem_cons, not_or] at hr
        exact ⟨by simpa using Ne.symm hr.1, hr.2⟩
    exact ih t u hrun (step_keeps_cerr hstep hs hhead.1) hhead.2

/-! ### The words that write the capture -/

/-- A command word is given by its opcode's number and its operand byte (30_encoding.md R72). -/
theorem command_of_opcode {w : BitVec 16} {n : Nat} (h : (opcode w).toNat = n) :
    PortWord.command (commandWord (BitVec.ofNat 8 n) (imm8 w)) = .command w := by
  rw [← h, BitVec.ofNat_toNat, BitVec.setWidth_eq, commandWord_fields]

/-- Every command word that decodes is the word of its instruction (30_encoding.md R74, R75). -/
theorem encode_of_decodeCommand {w : BitVec 16} {i : Instr} (h : decodeCommand w = .ok i) : encode i = .command w := by
  unfold decodeCommand at h
  split at h
  -- BITAT and DECODES keep the operand byte; the last arm rejects; the others are of format N.
  case h_3 hop | h_5 hop =>
    cases h
    simpa [encode] using command_of_opcode hop
  case h_13 => cases h
  all_goals
    rename_i hop
    obtain ⟨himm, rfl⟩ := formatN_eq_ok h
    simpa [encode, himm] using command_of_opcode hop

/-- The words of APPEND are the events with a card present (30_encoding.md R70, R71). -/
theorem decode_eq_append {p : PortWord} {level : Bool} (h : decode p = .ok (.append level)) :
    p = .event (edgeWord level) := by
  cases p with
  | event ev =>
    revert ev level
    decide
  | command w =>
    exact absurd (encode_of_decodeCommand h) (by simp [encode])

theorem decode_eq_clear {p : PortWord} (h : decode p = .ok .clear) : p = .command 0x1000#16 := by
  cases p with
  | event ev =>
    revert ev
    decide
  | command w => exact (encode_of_decodeCommand h).symm

/-- Settles O14, by the cases of a step: an instruction that writes cells or the length is APPEND or CLEAR. -/
theorem captureWrittenByProducerAndClear : Obligations.CaptureWrittenByProducerAndClear := by
  intro s t h
  cases step_cases h with
  | instr p rest i hin hd ht =>
    cases exec_cases ht
    case stored level hroom =>
      obtain rfl := decode_eq_append hd
      exact ⟨fun _ => ⟨level, rest, hin, hroom⟩, fun _ => ⟨rest, .inl ⟨level, hin, hroom⟩⟩⟩
    case clear =>
      obtain rfl := decode_eq_clear hd
      exact ⟨fun hne => absurd rfl hne, fun _ => ⟨rest, .inr (.inl hin)⟩⟩
    all_goals exact ⟨fun hne => absurd rfl hne, fun hne => absurd rfl hne⟩
  | load r v rest _ _ _ ht => simp [ht]
  | reset rest hin ht => exact ⟨by simp [ht], fun _ => ⟨rest, .inr (.inr hin)⟩⟩
  | idle _ ht => simp [ht]
  | noCard ev rest _ ht => simp [ht]
  | illegal w rest _ _ ht => simp [ht]
  | read r v rest _ _ ht => simp [ht]
  | medium m rest _ ht => simp [ht]

end Sys2Proof.Machine
end

section
/-! PROOFS. The host's accesses, the medium and the reset input: each is one served input. -/

namespace Sys2Proof.Machine

/-! ### Host writes and reads -/

theorem hostWrite_readOnly {r : Reg} (hr : hostWritable r = false) (v : PortValue) (s : State) :
    hostWrite r v s = .refused .readOnlyRegister := by
  simp [hostWrite, hr]

theorem hostWrite_unfit {r : Reg} {v : PortValue} (hr : hostWritable r = true) (ha : r.accepts v = false) (s : State) :
    hostWrite r v s = .refused .portCannotCarry := by
  simp [hostWrite, hr, ha]

/-- A write of CMD runs the word (10_state.md R31). -/
theorem hostWrite_cmd {n : Nat} (hn : n < 65536) (s : State) :
    hostWrite .cmd (.word n) s = runWord (.command (BitVec.ofNat 16 n)) s := by
  have ha : Reg.accepts .cmd (.word n) = true := decide_eq_true hn
  simp [hostWrite, hostWritable, ha]

/-- A write of an operand register with a value that fits loads it (10_state.md R34 to R38). -/
theorem hostWrite_load {r : Reg} {v : PortValue} (hcmd : r ≠ .cmd) (ha : r.accepts v = true) (s : State) :
    hostWrite r v s = .next (loadRegister r v s) := by
  cases r
  case cmd => exact absurd rfl hcmd
  case bval | wstat | sstat | cerr => simp [Reg.accepts] at ha
  all_goals simp [hostWrite, hostWritable, ha]

theorem hostRead_of_value {r : Reg} {v : PortValue} {s : State} (h : registerValue r s = some v) :
    hostRead r s = .next { s with reads := s.reads ++ [(r, v)] } := by
  rw [hostRead, h]

/-- Every register but CMD reads as a value (10_state.md R30). -/
theorem registerValue_of_ne_cmd {r : Reg} (h : r ≠ .cmd) (s : State) : ∃ v, registerValue r s = some v := by
  cases r
  case cmd => exact absurd rfl h
  all_goals exact ⟨_, rfl⟩

/-- Settles O51, by the cases of a host write. -/
theorem hostWritesOperandRegisters : Obligations.HostWritesOperandRegisters := by
  intro s rest r v hin
  have hstep : step s = hostWrite r v { s with inputs := rest } := step_serve hin
  rw [hstep]
  refine ⟨?cmd, ?fac, ?card, ?ser, ?slot, ?en, ?readOnly, fun hr ha => hostWrite_unfit hr ha _⟩
  case cmd =>
    rintro n hn rfl rfl
    rw [hostWrite_cmd hn]
    exact ⟨fun i hd => runWord_ok hd _, fun e hd => runWord_command_error hd _⟩
  case readOnly => rintro (rfl | rfl | rfl | rfl) <;> exact hostWrite_readOnly rfl _ _
  all_goals
    rintro x hx rfl rfl
    rw [hostWrite_load]
    · rfl
    · decide
    · exact decide_eq_true hx

/-- Settles O52. -/
theorem hostReadsReturnRegisters : Obligations.HostReadsReturnRegisters := by
  intro s rest r hin
  have hstep : step s = hostRead r { s with inputs := rest } := step_serve hin
  rw [hstep]
  refine ⟨by rintro rfl; rfl, fun v hv => hostRead_of_value ?_⟩
  rcases hv with ⟨rfl, rfl⟩ | ⟨rfl, rfl⟩ | ⟨rfl, rfl⟩ | ⟨rfl, rfl⟩ | ⟨rfl, rfl⟩ | ⟨rfl, rfl⟩ | ⟨rfl, rfl⟩ |
    ⟨rfl, rfl⟩ | ⟨rfl, rfl⟩ <;> rfl

/-! ### Accesses by number -/

/-- A number names a register exactly when it is that register's own (10_state.md R30). -/
theorem ofNumber_eq_some_iff {no : Nat} {r : Reg} : Reg.ofNumber no = some r ↔ r.number = no :=
  ⟨Reg.number_eq_of_ofNumber, fun h => h ▸ Reg.ofNumber_number r⟩

theorem number_lt (r : Reg) : r.number < 10 := by cases r <;> decide

/-- The register space ends at 9 (20_memory.md R50). -/
theorem ofNumber_eq_none_iff {no : Nat} : Reg.ofNumber no = none ↔ 10 ≤ no := by
  constructor
  · intro h
    by_contra hlt
    interval_cases no <;> cases h
  · intro hno
    rw [Option.eq_none_iff_forall_ne_some]
    rintro r hr
    have := number_lt r
    rw [Reg.number_eq_of_ofNumber hr] at this
    omega

theorem readAccess_eq_none_iff {no : Nat} : readAccess no = none ↔ 10 ≤ no := by
  rw [readAccess, Option.map_eq_none_iff, ofNumber_eq_none_iff]

theorem writeAccess_eq_none_iff {no : Nat} {v : PortValue} : writeAccess no v = none ↔ 10 ≤ no := by
  rw [writeAccess, Option.map_eq_none_iff, ofNumber_eq_none_iff]

theorem readAccess_eq_some {no : Nat} {i : Input} (h : readAccess no = some i) :
    ∃ r : Reg, r.number = no ∧ i = .read r := by
  obtain ⟨r, hr, rfl⟩ := Option.map_eq_some_iff.1 h
  exact ⟨r, Reg.number_eq_of_ofNumber hr, rfl⟩

theorem writeAccess_eq_some {no : Nat} {v : PortValue} {i : Input} (h : writeAccess no v = some i) :
    ∃ r : Reg, r.number = no ∧ i = .write r v := by
  obtain ⟨r, hr, rfl⟩ := Option.map_eq_some_iff.1 h
  exact ⟨r, Reg.number_eq_of_ofNumber hr, rfl⟩

/-- An input that is presented is the next one served. -/
theorem step_present (s : State) (i : Input) : step (s.present i) = serve i s := step_serve rfl

/-- The registers that take no host write, by their numbers (10_state.md R30). -/
theorem hostWritable_eq_false_iff {r : Reg} :
    hostWritable r = false ↔ r.number = 1 ∨ r.number = 2 ∨ r.number = 8 ∨ r.number = 9 := by
  cases r <;> decide

/-- Settles O55: an access by number is the access to the register that the number names. -/
theorem registerNumbersNameRegisters : Obligations.RegisterNumbersNameRegisters := by
  refine ⟨rfl, fun _ _ => ofNumber_eq_some_iff,
    fun no => ⟨readAccess_eq_none_iff, fun v => writeAccess_eq_none_iff⟩, ?named, fun w => rfl,
    fun s => ⟨?readCmd, ?readOther, ?writeReadOnly⟩⟩
  case named =>
    intro no r hr
    exact ⟨by rw [readAccess, hr]; rfl, fun v => by rw [writeAccess, hr]; rfl⟩
  case readCmd =>
    rintro i ⟨⟩
    rfl
  case readOther =>
    intro no i hno hi
    obtain ⟨r, rfl, rfl⟩ := readAccess_eq_some hi
    obtain ⟨v, hv⟩ := registerValue_of_ne_cmd (r := r) (by rintro rfl; exact hno rfl) s
    exact ⟨r, v, rfl, hv, (step_present s _).trans (hostRead_of_value hv)⟩
  case writeReadOnly =>
    intro no i v hno hi
    obtain ⟨r, rfl, rfl⟩ := writeAccess_eq_some hi
    exact (step_present s _).trans (hostWrite_readOnly (hostWritable_eq_false_iff.2 hno) v s)

/-! ### The platform and reset -/

/-- Settles O56. -/
theorem mediumInputSetsCondition : Obligations.MediumInputSetsCondition :=
  fun _ _ _ hin => step_serve hin

/-- Settles O43. -/
theorem resetInputKeepsCellsAndOutputs : Obligations.ResetInputKeepsCellsAndOutputs :=
  fun _ _ hin => step_serve hin

end Sys2Proof.Machine
end

section
/-! PROOFS. Cells at or above `len` cannot be observed (10_state.md R42): a step on two states that differ only there
answers two states that again differ only there, or two refusals for one reason. -/

namespace Sys2Proof.Machine

open Sys2Proof.Safety

/-! ### The commands that neither read nor write what the producer writes -/

/-- `s` with another capture and another `app_ok` output: the fields the producer writes (10_state.md R20, R21). -/
def State.withCapture (s : State) (b : Vector Bool Config.capacity) (l : BitVec 8) (oks : List Bool) : State :=
  { s with buf := b, len := l, appOks := oks }

/-- A change of the next state, where there is one. -/
def mapNext (f : State → State) : Host.Outcome State Fault Refusal → Host.Outcome State Fault Refusal
  | .next t => .next (f t)
  | .fault r => .fault r
  | .refused r => .refused r

theorem ite_mapNext {f : State → State} {c : Prop} [Decidable c] {x y x' y' : Host.Outcome State Fault Refusal}
    (hx : x' = mapNext f x) (hy : y' = mapNext f y) :
    (if c then x' else y') = mapNext f (if c then x else y) := by
  split
  · exact hx
  · exact hy

/-- FORMAT and the store commands (60_exceptions.md R216). -/
def IgnoresCapture (i : Instr) : Prop :=
  i = .format ∨ i = .lookup ∨ i = .get ∨ i = .put ∨ i = .insert ∨ i = .enum ∨ i = .delete

section
variable (s : State) (b : Vector Bool Config.capacity) (l : BitVec 8) (oks : List Bool)

@[simp] theorem withCapture_ser : (s.withCapture b l oks).ser = s.ser := rfl
@[simp] theorem withCapture_slot : (s.withCapture b l oks).slot = s.slot := rfl
@[simp] theorem withCapture_en : (s.withCapture b l oks).en = s.en := rfl
@[simp] theorem withCapture_store : (s.withCapture b l oks).store = s.store := rfl
@[simp] theorem withCapture_storeMax : (s.withCapture b l oks).storeMax = s.storeMax := rfl
@[simp] theorem withCapture_medium : (s.withCapture b l oks).medium = s.medium := rfl

theorem putRegisters_withCapture :
    putRegisters (s.withCapture b l oks) = mapNext (·.withCapture b l oks) (putRegisters s) := by
  simp only [putRegisters, withCapture_medium, withCapture_storeMax, withCapture_store, withCapture_slot,
    withCapture_ser, withCapture_en]
  cases putBySlot s.medium s.storeMax.val s.store s.slot s.ser s.en <;> rfl

theorem insertAt_withCapture (target : BitVec 16) (newslot : Nat) :
    insertAt target newslot (s.withCapture b l oks) =
      mapNext (·.withCapture b l oks) (insertAt target newslot s) := by
  simp only [insertAt, withCapture_medium, withCapture_storeMax, withCapture_store, withCapture_ser, withCapture_en]
  cases putBySlot s.medium s.storeMax.val s.store target s.ser s.en <;> rfl

theorem execLookup_withCapture :
    execLookup (s.withCapture b l oks) = mapNext (·.withCapture b l oks) (execLookup s) := by
  unfold execLookup
  refine ite_mapNext rfl ?_
  simp only [withCapture_store, withCapture_ser]
  cases scan s.store s.ser <;> rfl

theorem execGet_withCapture :
    execGet (s.withCapture b l oks) = mapNext (·.withCapture b l oks) (execGet s) := by
  unfold execGet
  refine ite_mapNext rfl (ite_mapNext rfl ?_)
  simp only [withCapture_store, withCapture_slot]
  cases parseAt s.store (slotOffset s.slot) <;> rfl

theorem execInsert_withCapture :
    execInsert (s.withCapture b l oks) = mapNext (·.withCapture b l oks) (execInsert s) := by
  unfold execInsert
  refine ite_mapNext rfl ?_
  simp only [withCapture_store, withCapture_ser, insertAt_withCapture]
  cases scan s.store s.ser with
  | found => rfl
  | failure c =>
    cases c
    case recordNotFound =>
      cases scan s.store blankSerial with
      | found => rfl
      | failure c => cases c <;> rfl
    all_goals rfl

theorem execEnum_withCapture :
    execEnum (s.withCapture b l oks) = mapNext (·.withCapture b l oks) (execEnum s) := by
  unfold execEnum
  exact ite_mapNext rfl rfl

/-- FORMAT and the store commands read nothing that the producer writes (60_exceptions.md R216). -/
theorem exec_withCapture {i : Instr} (hi : IgnoresCapture i) :
    exec i (s.withCapture b l oks) = mapNext (·.withCapture b l oks) (exec i s) := by
  obtain rfl | rfl | rfl | rfl | rfl | rfl | rfl := hi
  · rfl
  · exact execLookup_withCapture s b l oks
  · exact execGet_withCapture s b l oks
  · exact putRegisters_withCapture s b l oks
  · exact execInsert_withCapture s b l oks
  · exact execEnum_withCapture s b l oks
  · exact putRegisters_withCapture (s.setRecord blankSerial false) b l oks

end

/-- FORMAT and the store commands write nothing that the producer writes (10_state.md R20, R21). -/
theorem exec_keeps_capture {i : Instr} (hi : IgnoresCapture i) {s t : State} (h : exec i s = .next t) :
    t.buf = s.buf ∧ t.len = s.len ∧ t.appOks = s.appOks := by
  obtain rfl | rfl | rfl | rfl | rfl | rfl | rfl := hi <;> cases exec_cases h <;> exact ⟨rfl, rfl, rfl⟩

/-! ### Indistinguishable outcomes -/

/-- The same refusal, or next states that differ at most in cells at or above `len` (10_state.md R42). -/
inductive Indistinguishable : Host.Outcome State Fault Refusal → Host.Outcome State Fault Refusal → Prop where
  | next {t t' : State} (h : SameBelowLen t t') : Indistinguishable (.next t) (.next t')
  | refused (r : Refusal) : Indistinguishable (.refused r) (.refused r)

theorem Indistinguishable.refl (o : Host.Outcome State Fault Refusal) : Indistinguishable o o := by
  cases o with
  | next t => exact .next ⟨rfl, fun _ _ => rfl⟩
  | fault r => nomatch r
  | refused r => exact .refused r

theorem Indistinguishable.of_next {o o' : Host.Outcome State Fault Refusal} {t t' : State} (ho : o = .next t)
    (ho' : o' = .next t') (h : SameBelowLen t t') : Indistinguishable o o' := by
  rw [ho, ho']
  exact .next h

section
variable {s : State} {b : Vector Bool Config.capacity}

/-- Keeping the cells, and adding no valid one, keeps the states alike. -/
theorem sameBelowLen_of_kept (h : SameBelowLen s { s with buf := b }) {t : State} (hbuf : t.buf = s.buf)
    (hlen : t.len.toNat ≤ s.len.toNat) : SameBelowLen t { t with buf := b } := by
  obtain ⟨-, hcells⟩ := h
  refine ⟨rfl, fun j hj => (hcells j (hj.trans_le hlen)).trans ?_⟩
  rw [cellAt, cellAt, hbuf]

/-- Every cell of a full buffer is below `len`. -/
theorem buf_eq_of_full (h : SameBelowLen s { s with buf := b }) (hfull : s.len = 255#8) : b = s.buf := by
  obtain ⟨-, hcells⟩ := h
  refine Vector.ext fun j hj => ?_
  simpa [cellAt, hj] using hcells j (by simpa [hfull] using hj)

theorem bitAt_congr (h : SameBelowLen s { s with buf := b }) (pos : Nat) : bitAt { s with buf := b } pos = bitAt s pos := by
  obtain ⟨-, hcells⟩ := h
  unfold bitAt
  split
  · next hpos => rw [hcells pos hpos]
  · rfl

end

/-! ### Instructions -/

theorem cellAt_setCell (s : State) (i : Nat) (bit : Bool) (j : Nat) (hi : i < Config.capacity) :
    cellAt (setCell s i bit) j = if i = j then bit else cellAt s j := by
  rw [cellAt, setCell_buf, Vector.getElem?_setIfInBounds]
  split
  · next hij => subst hij; simp
  · rfl

/-- The same bit at the same position keeps the states alike (40_bitcapture.md R100). -/
theorem sameBelowLen_append {s : State} {b : Vector Bool Config.capacity}
    (h : SameBelowLen s { s with buf := b }) (hroom : s.len ≠ 255#8) (bit : Bool) :
    SameBelowLen ({ setCell s s.len.toNat bit with len := s.len + 1#8 }.driveAppOk true)
      ({ setCell { s with buf := b } s.len.toNat bit with len := s.len + 1#8 }.driveAppOk true) := by
  obtain ⟨-, hcells⟩ := h
  have hcap : s.len.toNat < Config.capacity := by
    simp only [Config.capacity]
    bv_omega
  refine ⟨rfl, fun j hj => ?_⟩
  have hj : j ≤ s.len.toNat := by
    simp only [State.driveAppOk_len] at hj
    bv_omega
  have key : cellAt (setCell { s with buf := b } s.len.toNat bit) j = cellAt (setCell s s.len.toNat bit) j := by
    rw [cellAt_setCell _ _ _ _ hcap, cellAt_setCell _ _ _ _ hcap]
    split
    · rfl
    · next hne => exact hcells j (by omega)
  exact key

section
variable {s : State} {b : Vector Bool Config.capacity}

theorem execAppend_indistinguishable (h : SameBelowLen s { s with buf := b }) (hroom : s.len ≠ 255#8) (level : Bool) :
    Indistinguishable (execAppend level s) (execAppend level { s with buf := b }) := by
  have append : ∀ s' : State, s'.len = s.len → execAppend level s' = .next
      ({ setCell s' s.len.toNat (logicalBit level) with len := s.len + 1#8 }.driveAppOk true) := by
    intro s' hlen
    rw [execAppend, appendBit, if_neg (by rw [full_iff, hlen]; exact hroom), hlen]
  exact .of_next (append s rfl) (append { s with buf := b } rfl) (sameBelowLen_append h hroom _)

/-- A decode of a buffer that is not full faults (41_wiegand_decoder.md R140). -/
theorem exec_decode_not_full {i : Instr} (hi : DecodeCommand i) (hroom : s.len ≠ 255#8) :
    exec i s = .next s.faultCerr := by
  have hfull := full_eq_false_iff.2 hroom
  obtain rfl | ⟨cap, rfl⟩ := hi
  · simp [exec, execDecode, hfull]
  · simp [exec, execDecodes, hfull]

/-- What ignores the capture cannot tell two captures apart. -/
theorem exec_indistinguishable_of_ignores (h : SameBelowLen s { s with buf := b }) {i : Instr} (hi : IgnoresCapture i) :
    Indistinguishable (exec i s) (exec i { s with buf := b }) := by
  have hmap : exec i { s with buf := b } = mapNext (·.withCapture b s.len s.appOks) (exec i s) :=
    exec_withCapture s b s.len s.appOks hi
  rw [hmap]
  cases ho : exec i s with
  | next t =>
    obtain ⟨hbuf, hlen, hoks⟩ := exec_keeps_capture hi ho
    rw [← hlen, ← hoks]
    exact .next (sameBelowLen_of_kept h hbuf (by rw [hlen]))
  | fault r => nomatch r
  | refused r => exact .refused r

/-- No instruction can tell the two states apart. A full buffer has no stale cell; otherwise the decodes fault, and
APPEND writes the same bit at the same position. -/
theorem exec_indistinguishable (h : SameBelowLen s { s with buf := b }) (i : Instr) :
    Indistinguishable (exec i s) (exec i { s with buf := b }) := by
  by_cases hfull : s.len = 255#8
  · rw [buf_eq_of_full h hfull]
    exact .refl _
  cases i with
  | append level => exact execAppend_indistinguishable h hfull level
  | clear => exact .next (sameBelowLen_of_kept h rfl (Nat.zero_le _))
  | isfull => exact .next (sameBelowLen_of_kept h rfl le_rfl)
  | bitat pos =>
    refine .of_next rfl (t' := { s with buf := b, bval := bitAt s pos }) ?_ (sameBelowLen_of_kept h rfl le_rfl)
    rw [← bitAt_congr h]
    rfl
  | decode =>
    exact .of_next (exec_decode_not_full (.inl rfl) hfull)
      (exec_decode_not_full (s := { s with buf := b }) (.inl rfl) hfull) (sameBelowLen_of_kept h rfl le_rfl)
  | decodes cap =>
    exact .of_next (exec_decode_not_full (.inr ⟨cap, rfl⟩) hfull)
      (exec_decode_not_full (s := { s with buf := b }) (.inr ⟨cap, rfl⟩) hfull) (sameBelowLen_of_kept h rfl le_rfl)
  | format | lookup | get | put | insert | enum | delete =>
    exact exec_indistinguishable_of_ignores h (by simp [IgnoresCapture])

/-! ### Inputs -/

theorem runWord_indistinguishable (h : SameBelowLen s { s with buf := b }) (p : PortWord) :
    Indistinguishable (runWord p s) (runWord p { s with buf := b }) := by
  unfold runWord
  cases decode p with
  | ok i => exact exec_indistinguishable h i
  | error e =>
    cases e with
    | notPresent => exact .next h
    | illegalOpcode | operandByteNotZero => exact .next (sameBelowLen_of_kept h rfl le_rfl)

theorem hostWrite_indistinguishable (h : SameBelowLen s { s with buf := b }) (r : Reg) (v : PortValue) :
    Indistinguishable (hostWrite r v s) (hostWrite r v { s with buf := b }) := by
  cases hr : hostWritable r with
  | false =>
    rw [hostWrite_readOnly hr, hostWrite_readOnly hr]
    exact .refused _
  | true =>
  cases ha : r.accepts v with
  | false =>
    rw [hostWrite_unfit hr ha, hostWrite_unfit hr ha]
    exact .refused _
  | true =>
  by_cases hcmd : r = .cmd
  · subst hcmd
    cases v with
    | text bs => cases ha
    | word n =>
      have hn : n < 65536 := of_decide_eq_true ha
      rw [hostWrite_cmd hn, hostWrite_cmd hn]
      exact runWord_indistinguishable h _
  · have hload : loadRegister r v { s with buf := b } = { loadRegister r v s with buf := b } := by
      cases r <;> cases v <;> rfl
    rw [hostWrite_load hcmd ha, hostWrite_load hcmd ha, hload]
    exact .next (sameBelowLen_of_kept h (loadRegister_buf r v s) (by rw [loadRegister_len]))

theorem hostRead_indistinguishable (h : SameBelowLen s { s with buf := b }) (r : Reg) :
    Indistinguishable (hostRead r s) (hostRead r { s with buf := b }) := by
  have hvalue : registerValue r { s with buf := b } = registerValue r s := by cases r <;> rfl
  rw [hostRead, hostRead, hvalue]
  cases registerValue r s with
  | none => exact .refused _
  | some v => exact .next (sameBelowLen_of_kept h rfl le_rfl)

theorem serve_indistinguishable (h : SameBelowLen s { s with buf := b }) (i : Input) :
    Indistinguishable (serve i s) (serve i { s with buf := b }) := by
  cases i with
  | event ev => exact runWord_indistinguishable h (.event ev)
  | write r v => exact hostWrite_indistinguishable h r v
  | read r => exact hostRead_indistinguishable h r
  | medium m => exact .next (sameBelowLen_of_kept h rfl le_rfl)
  | reset => exact .next (sameBelowLen_of_kept h rfl (Nat.zero_le _))

end

theorem step_indistinguishable {s s' : State} (h : SameBelowLen s s') : Indistinguishable (step s) (step s') := by
  obtain ⟨b, rfl⟩ : ∃ b, s' = { s with buf := b } := 
    let ⟨hs', _⟩ := h
    ⟨s'.buf, hs'⟩
  by_cases hin : s.inputs = []
  · exact .of_next (step_idle hin) (step_idle (s := { s with buf := b }) hin) h
  · obtain ⟨i, rest, hin⟩ := List.exists_cons_of_ne_nil hin
    rw [step_serve hin, step_serve (s := { s with buf := b }) hin]
    exact serve_indistinguishable (s := { s with inputs := rest }) (sameBelowLen_of_kept h rfl le_rfl) i

/-- Settles O16: no input that a step serves can tell the two states apart. -/
theorem staleCellsAreUnobservable : Obligations.StaleCellsAreUnobservable := by
  intro s s' h
  have hstep := step_indistinguishable h
  generalize step s = o, step s' = o' at hstep
  cases hstep with
  | next h => exact .inl ⟨_, _, rfl, rfl, h⟩
  | refused r => exact .inr ⟨r, rfl, rfl⟩

end Sys2Proof.Machine
end

section
/-! PROOFS. The two agents on one state: a word is served whole (20_memory.md R60), events on a full buffer
(20_memory.md R62), and an event beside a store command (60_exceptions.md R216). -/

namespace Sys2Proof.Machine

open Sys2Proof.Safety

/-- Settles O4. -/
theorem stepRunsDecodedInstr : Obligations.StepRunsDecodedInstr :=
  fun _ _ _ _ hin hd => (step_word hin).trans (runWord_ok hd _)

/-! ### Events on a full buffer -/

/-- At capacity the bit is dropped (40_bitcapture.md R100). -/
theorem appendBit_full {s : State} (hfull : s.len = 255#8) (bit : Bool) : appendBit bit s = s.driveAppOk false :=
  if_pos (full_iff.2 hfull)

/-- On a full buffer an event answers `app_ok` = 0 if a card is present, and changes nothing else
(20_memory.md R62; 30_encoding.md R71). -/
theorem step_event_full {s : State} {ev : BitVec 2} {rest : List Input} (hin : s.inputs = .event ev :: rest)
    (hfull : s.len = 255#8) :
    step s = .next { s with inputs := rest, appOks := s.appOks ++ if ev[1] then [false] else [] } := by
  rw [step_word (p := .event ev) hin]
  obtain ⟨hcard, hd⟩ | ⟨hcard, hd⟩ := decodeEvent_cases ev
  · rw [runWord_ok (p := .event ev) hd, exec, execAppend,
      appendBit_full (s := { s with inputs := rest }) hfull, if_pos hcard]
    rfl
  · rw [runWord, decode, hd]
    simp [hcard]

/-- Settles O13, by induction on the events. -/
theorem fullBufferIsFrozenUnderEvents : Obligations.FullBufferIsFrozenUnderEvents := by
  intro evs
  induction evs with
  | nil =>
    rintro s rest rfl -
    simp [run]
  | cons ev evs ih =>
    intro s rest hin hfull
    have hrun := ih { s with
      inputs := evs.map .event ++ rest, appOks := s.appOks ++ if ev[1] then [false] else [] } rest rfl hfull
    rw [List.length_cons, run_succ (step_event_full hin hfull)]
    refine hrun.trans ?_
    cases hcard : ev[1] <;> simp [hcard, List.replicate_succ]

/-! ### An event beside a store command -/

/-- What an APPEND writes depends on the capture and the `app_ok` output alone (40_bitcapture.md R100). -/
theorem appendBit_eq_withCapture {s t : State} (hbuf : t.buf = s.buf) (hlen : t.len = s.len)
    (hoks : t.appOks = s.appOks) (bit : Bool) :
    appendBit bit t =
      t.withCapture (appendBit bit s).buf (appendBit bit s).len (appendBit bit s).appOks := by
  unfold appendBit State.full setCell
  rw [hbuf, hlen]
  split <;> simp [State.withCapture, State.driveAppOk, hbuf, hlen, hoks]

/-- Settles O53: the command ignores what the event writes, and keeps what the event reads. -/
theorem eventsCommuteWithStoreCommands : Obligations.EventsCommuteWithStoreCommands := by
  intro i level s t hi h
  obtain ⟨hbuf, hlen, hoks⟩ := exec_keeps_capture hi h
  refine ⟨appendBit (logicalBit level) s, appendBit (logicalBit level) t, rfl, ?_, rfl⟩
  rw [appendBit_eq_withCapture rfl rfl rfl, exec_withCapture s _ _ _ hi, h, mapNext,
    ← appendBit_eq_withCapture hbuf hlen hoks]

end Sys2Proof.Machine
end

section
/-! PROOFS. Where a step is refused (20_memory.md R57; 10_state.md R30): two host writes, the read of CMD, and a write
that would end beyond STORE_MAX_BYTES. -/

namespace Sys2Proof.Machine

open Sys2Proof.Safety

/-! ### What a scan answers -/

/-- A scan ends without a match exactly where the slots end before one (42_cardstore.md R165). -/
theorem scan_notFound_iff {st : Store} {key : Bytes} : scan st key = .failure .recordNotFound ↔
    ∃ n, NoMatchBelow st key n ∧ parseAt st (Config.recordLen * n) = .failure .eof := by
  constructor
  · intro h
    obtain ⟨n, hbelow, ⟨heof, -⟩ | ⟨hp, -⟩⟩ := scan_failure h
    · exact ⟨n, hbelow, heof⟩
    · simpa using parseAt_codes hp
  · rintro ⟨n, hbelow, heof⟩
    obtain hscan | ⟨serial, enabled, hp, -⟩ := scan_skip hbelow
    · rw [hscan, scanFrom_succ, heof]
    · rw [heof] at hp
      cases hp

/-- A scan answers the first slot that parses to the serial it looks for (42_cardstore.md R165). -/
theorem scan_found_iff {st : Store} {key : Bytes} {k : Nat} {enabled : Bool} :
    scan st key = .found key k enabled ↔
      NoMatchBelow st key k ∧ parseAt st (Config.recordLen * k) = .record key enabled := by
  constructor
  · intro h
    obtain ⟨-, hp, hbelow⟩ := scan_found h
    exact ⟨hbelow, hp⟩
  · rintro ⟨hbelow, hp⟩
    obtain hscan | ⟨serial, enabled', hp', hne⟩ := scan_skip hbelow
    · rw [hscan, scanFrom_succ, hp]
      simp
    · rw [hp] at hp'
      cases hp'
      exact absurd rfl hne

/-- The slots below `m` are records, so a slot that fails to parse is none of them. -/
theorem noMatchBelow_le_of_failure {st : Store} {key : Bytes} {m n : Nat} {c : SCode} (h : NoMatchBelow st key m)
    (hp : parseAt st (Config.recordLen * n) = .failure c) : m ≤ n := by
  by_contra hlt
  obtain ⟨serial, enabled, hrec, -⟩ := h n (by omega)
  rw [hp] at hrec
  cases hrec

/-! ### Instructions -/

/-- The offset at which PUT, DELETE or INSERT writes once every test that answers a code, but that of the range, is
passed (42_cardstore.md R174, R180, R187). -/
inductive WritesAt (s : State) : Instr → Nat → Prop where
  | put (hser : s.ser.length = Config.serialLen) : WritesAt s .put (putOffset s.store s.slot)
  | delete : WritesAt s .delete (putOffset s.store s.slot)
  | insertEnd (n : Nat) (hser : s.ser.length = Config.serialLen) (hnew : NoMatchBelow s.store s.ser n)
      (heof : parseAt s.store (Config.recordLen * n) = .failure .eof) (hfull : NoMatchBelow s.store blankSerial n) :
      WritesAt s .insert s.store.size
  | insertBlank (n k : Nat) (enabled : Bool) (hser : s.ser.length = Config.serialLen)
      (hnew : NoMatchBelow s.store s.ser n) (heof : parseAt s.store (Config.recordLen * n) = .failure .eof)
      (hfirst : NoMatchBelow s.store blankSerial k)
      (hblank : parseAt s.store (Config.recordLen * k) = .record blankSerial enabled) :
      WritesAt s .insert (putOffset s.store (BitVec.ofNat 16 k))

/-- The write of `i` lies in range and would end beyond STORE_MAX_BYTES (20_memory.md R57). -/
def Overflows (s : State) (i : Instr) : Prop :=
  s.medium = .ok ∧ ∃ off, WritesAt s i off ∧ off ≤ s.store.size ∧ s.storeMax.val < off + Config.recordLen

theorem execInsert_refused {s : State} {r : Refusal} (h : execInsert s = .refused r) :
    r = .storeFull ∧ Overflows s .insert := by
  unfold execInsert at h
  split at h
  · cases h
  split at h
  · cases h
  · next hs =>
    obtain ⟨n, hnew, heof⟩ := scan_notFound_iff.1 hs
    split at h
    · next serial k enabled hb =>
      obtain ⟨rfl, hrec, hfirst⟩ := scan_found hb
      obtain ⟨hr, hm, hser, hoff, hmax⟩ := insertAt_refused_iff.1 h
      exact ⟨hr, hm, _, .insertBlank n k enabled hser hnew heof hfirst hrec, hoff, hmax⟩
    · next hb =>
      obtain ⟨n', hfull, heof'⟩ := scan_notFound_iff.1 hb
      obtain rfl : n = n' :=
        le_antisymm (noMatchBelow_le_of_failure hnew heof') (noMatchBelow_le_of_failure hfull heof)
      obtain ⟨hr, hm, hser, hoff, hmax⟩ := insertAt_refused_iff.1 h
      exact ⟨hr, hm, _, .insertEnd n hser hnew heof hfull, hoff, hmax⟩
    · cases h
  · cases h

/-- Every instruction but the three that write the store answers a next state (60_exceptions.md R200). -/
theorem exec_next_of_not_writer {i : Instr} (hi : ¬(i = .put ∨ i = .insert ∨ i = .delete)) (s : State) :
    ∃ t, exec i s = .next t := by
  cases i with
  | put | insert | delete => simp at hi
  | append | clear | isfull | bitat | format => exact ⟨_, rfl⟩
  | decode =>
    rw [exec, execDecode]
    split <;> exact ⟨_, rfl⟩
  | decodes cap =>
    rw [exec, execDecodes]
    split
    · split <;> exact ⟨_, rfl⟩
    · exact ⟨_, rfl⟩
  | lookup =>
    rw [exec, execLookup]
    split
    · exact ⟨_, rfl⟩
    · split <;> exact ⟨_, rfl⟩
  | get =>
    rw [exec, execGet]
    split
    · exact ⟨_, rfl⟩
    · split
      · exact ⟨_, rfl⟩
      · split <;> exact ⟨_, rfl⟩
  | enum =>
    rw [exec, execEnum]
    split <;> exact ⟨_, rfl⟩

/-- An instruction is refused only for a write that does not fit the medium (20_memory.md R57). -/
theorem exec_refused {i : Instr} {s : State} {r : Refusal} (h : exec i s = .refused r) :
    r = .storeFull ∧ Overflows s i := by
  by_cases hi : i = .put ∨ i = .insert ∨ i = .delete
  · obtain rfl | rfl | rfl := hi
    · obtain ⟨hr, hm, hser, hoff, hmax⟩ := putRegisters_refused_iff.1 h
      exact ⟨hr, hm, _, .put hser, hoff, hmax⟩
    · exact execInsert_refused h
    · obtain ⟨hr, hm, -, hoff, hmax⟩ := putRegisters_refused_iff (s := s.setRecord blankSerial false).1 h
      exact ⟨hr, hm, _, .delete, hoff, hmax⟩
  · obtain ⟨t, ht⟩ := exec_next_of_not_writer hi s
    rw [ht] at h
    cases h

/-- A write that does not fit the medium is refused (20_memory.md R57). -/
theorem exec_overflow {i : Instr} {s : State} (h : Overflows s i) : exec i s = .refused .storeFull := by
  obtain ⟨hm, off, hw, hoff, hmax⟩ := h
  cases hw with
  | put hser => exact putRegisters_refused_iff.2 ⟨rfl, hm, hser, hoff, hmax⟩
  | delete =>
    exact putRegisters_refused_iff (s := s.setRecord blankSerial false).2
      ⟨rfl, hm, length_blankSerial, hoff, hmax⟩
  | insertEnd n hser hnew heof hfull =>
    rw [exec, execInsert, if_neg (not_not.2 (openStore_ok.2 hm)), scan_notFound_iff.2 ⟨n, hnew, heof⟩,
      scan_notFound_iff.2 ⟨n, hfull, heof⟩]
    exact insertAt_refused_iff.2 ⟨rfl, hm, hser, hoff, hmax⟩
  | insertBlank n k enabled hser hnew heof hfirst hblank =>
    rw [exec, execInsert, if_neg (not_not.2 (openStore_ok.2 hm)), scan_notFound_iff.2 ⟨n, hnew, heof⟩,
      scan_found_iff.2 ⟨hfirst, hblank⟩]
    exact insertAt_refused_iff.2 ⟨rfl, hm, hser, hoff, hmax⟩

/-- An instruction that writes the store has one word (30_encoding.md R74, R75). -/
theorem encode_of_overflow {p : PortWord} {i : Instr} {s : State} (hd : decode p = .ok i) (h : Overflows s i) :
    encode i = p := by
  cases p with
  | event ev =>
    -- An event is at most an APPEND, which writes nothing to the store.
    obtain ⟨-, off, hw, -⟩ := h
    obtain ⟨-, he⟩ | ⟨-, he⟩ := decodeEvent_cases ev
    · cases he.symm.trans hd
      cases hw
    · cases he.symm.trans hd
  | command w => exact encode_of_decodeCommand hd

/-- The word of an instruction that writes the store decodes to it (30_encoding.md R74). -/
theorem decode_encode_of_overflow {i : Instr} {s : State} (h : Overflows s i) : decode (encode i) = .ok i := by
  obtain ⟨-, off, hw, -⟩ := h
  cases hw <;> rfl

/-! ### Steps -/

/-- Every input that is refused, with its refusal (10_state.md R30; 20_memory.md R57). -/
inductive RefusedInput (s : State) : Input → Refusal → Prop where
  | readOnly (reg : Reg) (v : PortValue) (hreg : hostWritable reg = false) :
      RefusedInput s (.write reg v) .readOnlyRegister
  | unfit (reg : Reg) (v : PortValue) (hreg : hostWritable reg = true) (hv : reg.accepts v = false) :
      RefusedInput s (.write reg v) .portCannotCarry
  | readCmd : RefusedInput s (.read .cmd) .writeOnlyRegister
  | storeFull (i : Instr) (h : Overflows s i) : RefusedInput s (PortWord.input (encode i)) .storeFull

theorem runWord_refused {p : PortWord} {s : State} {r : Refusal} (h : runWord p s = .refused r) :
    RefusedInput s (PortWord.input p) r := by
  cases hd : decode p with
  | ok i =>
    rw [runWord_ok hd] at h
    obtain ⟨rfl, hover⟩ := exec_refused h
    exact encode_of_overflow hd hover ▸ .storeFull i hover
  | error e =>
    rw [runWord, hd] at h
    cases e <;> cases h

theorem hostWrite_refused {reg : Reg} {v : PortValue} {s : State} {r : Refusal} (h : hostWrite reg v s = .refused r) :
    RefusedInput s (.write reg v) r := by
  cases hreg : hostWritable reg with
  | false =>
    rw [hostWrite_readOnly hreg] at h
    cases h
    exact .readOnly reg v hreg
  | true =>
  cases hv : reg.accepts v with
  | false =>
    rw [hostWrite_unfit hreg hv] at h
    cases h
    exact .unfit reg v hreg hv
  | true =>
  by_cases hcmd : reg = .cmd
  · subst hcmd
    cases v with
    | text bs => cases hv
    | word n =>
      have hn : n < 65536 := of_decide_eq_true hv
      rw [hostWrite_cmd hn] at h
      simpa [PortWord.input, Nat.mod_eq_of_lt hn] using runWord_refused h
  · rw [hostWrite_load hcmd hv] at h
    cases h

theorem hostRead_refused {reg : Reg} {s : State} {r : Refusal} (h : hostRead reg s = .refused r) :
    RefusedInput s (.read reg) r := by
  by_cases hcmd : reg = .cmd
  · subst hcmd
    cases h
    exact .readCmd
  · obtain ⟨v, hv⟩ := registerValue_of_ne_cmd hcmd s
    rw [hostRead_of_value hv] at h
    cases h

theorem serve_refused_iff {i : Input} {s : State} {r : Refusal} : serve i s = .refused r ↔ RefusedInput s i r := by
  constructor
  · intro h
    cases i with
    | event ev => exact runWord_refused (p := .event ev) h
    | write reg v => exact hostWrite_refused h
    | read reg => exact hostRead_refused h
    | medium m => cases h
    | reset => cases h
  · rintro (⟨reg, v, hreg⟩ | ⟨reg, v, hreg, hv⟩ | _ | ⟨i, h⟩)
    · exact hostWrite_readOnly hreg v s
    · exact hostWrite_unfit hreg hv s
    · rfl
    · rw [serve_input, runWord_ok (decode_encode_of_overflow h), exec_overflow h]

/-- A step is refused exactly where the input it takes is (20_memory.md R60). -/
theorem step_refused_iff {s : State} {r : Refusal} : step s = .refused r ↔
    ∃ i rest, s.inputs = i :: rest ∧ RefusedInput { s with inputs := rest } i r := by
  constructor
  · intro h
    by_cases hin : s.inputs = []
    · rw [step_idle hin] at h
      cases h
    · obtain ⟨i, rest, hin⟩ := List.exists_cons_of_ne_nil hin
      rw [step_serve hin] at h
      exact ⟨i, rest, hin, serve_refused_iff.1 h⟩
  · rintro ⟨i, rest, hin, h⟩
    exact (step_serve hin).trans (serve_refused_iff.2 h)

/-- The four registers that take no host write (10_state.md R30). -/
theorem hostWritable_eq_false_iff_reg {reg : Reg} :
    hostWritable reg = false ↔ reg = .bval ∨ reg = .wstat ∨ reg = .sstat ∨ reg = .cerr := by
  cases reg <;> decide

/-- Settles O50: the inputs that are refused, by their refusal and then by the instruction whose write overflows. -/
theorem stepRefusesOnlyWhereSpecDoes : Obligations.StepRefusesOnlyWhereSpecDoes := by
  intro s r
  rw [step_refused_iff]
  refine exists_congr fun i => exists_congr fun rest => and_congr_right fun _ => ⟨fun h => ?_, fun h => ?_⟩
  · cases h with
    | readOnly reg v hreg => exact .inl ⟨rfl, reg, v, rfl, hostWritable_eq_false_iff_reg.1 hreg⟩
    | unfit reg v hreg hv => exact .inr (.inl ⟨rfl, reg, v, rfl, hreg, hv⟩)
    | readCmd => exact .inr (.inr (.inl ⟨rfl, rfl⟩))
    | storeFull i h =>
      obtain ⟨hm, off, hw, hoff, hmax⟩ := h
      refine .inr (.inr (.inr ⟨rfl, hm, off, hoff, hmax, ?_⟩))
      cases hw with
      | put hser => exact .inl ⟨rfl, hser, rfl⟩
      | delete => exact .inr (.inl ⟨rfl, rfl⟩)
      | insertEnd n hser hnew heof hfull => exact .inr (.inr ⟨rfl, hser, n, hnew, heof, .inl ⟨hfull, rfl⟩⟩)
      | insertBlank n k enabled hser hnew heof hfirst hblank =>
        exact .inr (.inr ⟨rfl, hser, n, hnew, heof, .inr ⟨k, enabled, hfirst, hblank, rfl⟩⟩)
  · obtain ⟨rfl, reg, v, rfl, hreg⟩ | ⟨rfl, reg, v, rfl, hreg, hv⟩ | ⟨rfl, rfl⟩ |
      ⟨rfl, hm, off, hoff, hmax, hw⟩ := h
    · exact .readOnly reg v (hostWritable_eq_false_iff_reg.2 hreg)
    · exact .unfit reg v hreg hv
    · exact .readCmd
    · obtain ⟨rfl, hser, rfl⟩ | ⟨rfl, rfl⟩ | ⟨rfl, hser, n, hnew, heof, hw⟩ := hw
      · exact .storeFull .put ⟨hm, _, .put hser, hoff, hmax⟩
      · exact .storeFull .delete ⟨hm, _, .delete, hoff, hmax⟩
      · obtain ⟨hfull, rfl⟩ | ⟨k, enabled, hfirst, hblank, rfl⟩ := hw
        · exact .storeFull .insert ⟨hm, _, .insertEnd n hser hnew heof hfull, hoff, hmax⟩
        · exact .storeFull .insert ⟨hm, _, .insertBlank n k enabled hser hnew heof hfirst hblank, hoff, hmax⟩

end Sys2Proof.Machine
end

section
/-! PROOFS. The encoding (30_encoding.md R70 to R77): decoder and encoder are inverse on the legal words, and every other
command word sets CERR and nothing else. -/

namespace Sys2Proof.Machine

open Sys2Proof.Safety

/-! ### The round trip -/

/-- BITAT keeps its operand byte as a number (30_encoding.md R73, R74). -/
theorem decode_bitatWord (imm : BitVec 8) : decode (.command (commandWord 0x12#8 imm)) = .ok (.bitat imm.toNat) := by
  simp [decode, decodeCommand]

/-- DECODES keeps its operand byte as a number (30_encoding.md R73, R74). -/
theorem decode_decodesWord (imm : BitVec 8) : decode (.command (commandWord 0x14#8 imm)) = .ok (.decodes imm.toNat) := by
  simp [decode, decodeCommand]

/-- The opcode of DECODE is of format N (30_encoding.md R72, R74). -/
theorem decode_decodeWord (imm : BitVec 8) :
    decode (.command (commandWord 0x13#8 imm)) = formatN (commandWord 0x13#8 imm) .decode := by
  simp [decode, decodeCommand]

/-- An operand that fits its byte is the number of that byte (30_encoding.md R73). -/
theorem toNat_operandByte {n : Nat} (hn : n < 256) : (BitVec.ofNat 8 n).toNat = n :=
  Nat.mod_eq_of_lt hn

/-- Settles O1, by the rows of the table: only BITAT and DECODES have an operand byte, and APPEND its level. -/
theorem encodedInstrDecodesBack : Obligations.EncodedInstrDecodesBack := by
  intro i hwf
  cases i with
  | append level => cases level <;> rfl
  | bitat pos => rw [encode, decode_bitatWord, toNat_operandByte (of_decide_eq_true hwf)]
  | decodes cap => rw [encode, decode_decodesWord, toNat_operandByte (of_decide_eq_true hwf)]
  | clear | isfull | decode | format => rfl
  | lookup | get | put | insert | enum | delete => rfl

/-- The operand byte of a command word is below 256 (30_encoding.md R73). -/
theorem wf_of_decodeCommand {w : BitVec 16} {i : Instr} (h : decodeCommand w = .ok i) : i.wf = true := by
  unfold decodeCommand at h
  split at h
  -- As in `encode_of_decodeCommand`: BITAT and DECODES, the arm that rejects, and the arms of format N.
  case h_3 | h_5 =>
    cases h
    exact decide_eq_true (imm8 w).isLt
  case h_13 => cases h
  all_goals
    obtain ⟨-, rfl⟩ := formatN_eq_ok h
    rfl

/-- Settles O2: an event that decodes is an APPEND, a command word keeps its fields. -/
theorem decodedWordIsItsEncoding : Obligations.DecodedWordIsItsEncoding := by
  intro p i h
  cases p with
  | event ev =>
    obtain ⟨-, hd⟩ | ⟨-, hd⟩ := decodeEvent_cases ev
    · obtain rfl : Instr.append ev[0] = i := by simpa using hd.symm.trans h
      rw [decode_eq_append h]
      exact ⟨rfl, by cases ev[0] <;> rfl⟩
    · cases hd.symm.trans h
  | command w => exact ⟨wf_of_decodeCommand h, encode_of_decodeCommand h⟩

/-- A word decodes exactly when it is the word of a well-formed instruction (30_encoding.md R75). -/
theorem decodes_iff_encoding {p : PortWord} : (∃ i, decode p = .ok i) ↔ ∃ i : Instr, i.wf = true ∧ encode i = p :=
  ⟨fun ⟨i, h⟩ => ⟨i, decodedWordIsItsEncoding p i h⟩, fun ⟨i, hwf, h⟩ => ⟨i, h ▸ encodedInstrDecodesBack i hwf⟩⟩

/-- Settles O3: the thirteen words are decoded by evaluation. -/
theorem tableWordsDecode : Obligations.TableWordsDecode :=
  ⟨rfl, rfl, rfl, rfl, rfl, rfl, rfl, rfl, rfl, rfl, rfl, rfl, rfl⟩

/-- Settles O5, by the bit `present` of the event word. -/
theorem eventWordsDecodeByPresent : Obligations.EventWordsDecodeByPresent := by
  intro s ev rest hin
  rw [step_word (p := .event ev) hin]
  obtain ⟨hcard, hd⟩ | ⟨hcard, hd⟩ := decodeEvent_cases ev
  · rw [runWord_ok (p := .event ev) hd]
    exact ⟨fun _ => ⟨rfl, rfl⟩, fun hno => absurd (hcard.symm.trans hno) (by decide)⟩
  · refine ⟨fun hyes => absurd (hcard.symm.trans hyes) (by decide), fun _ => ?_⟩
    rw [runWord, decode, hd]

/-! ### Legal words and the command fault -/

/-- The words of the ten rows of format N (30_encoding.md R74). -/
theorem formatNWord_is_encoding {op : BitVec 8} (hop : op ∈ formatNOpcodes) :
    ∃ i : Instr, i.wf = true ∧ encode i = .command (commandWord op 0#8) := by
  simp only [formatNOpcodes, List.mem_cons, List.not_mem_nil, or_false] at hop
  obtain rfl | rfl | rfl | rfl | rfl | rfl | rfl | rfl | rfl | rfl := hop
  · exact ⟨.clear, rfl, rfl⟩
  · exact ⟨.isfull, rfl, rfl⟩
  · exact ⟨.decode, rfl, rfl⟩
  · exact ⟨.format, rfl, rfl⟩
  · exact ⟨.lookup, rfl, rfl⟩
  · exact ⟨.get, rfl, rfl⟩
  · exact ⟨.put, rfl, rfl⟩
  · exact ⟨.insert, rfl, rfl⟩
  · exact ⟨.enum, rfl, rfl⟩
  · exact ⟨.delete, rfl, rfl⟩

/-- The command word of an instruction is legal by its two fields (30_encoding.md R75). -/
theorem legalWord_of_encoding {i : Instr} {w : BitVec 16} (h : encode i = .command w) : LegalWord w := by
  cases i with
  | append level => cases h
  | bitat pos => cases h; exact .inr ⟨_, .inl rfl⟩
  | decodes cap => cases h; exact .inr ⟨_, .inr rfl⟩
  | clear | isfull | decode | format | lookup | get | put | insert | enum | delete =>
    cases h
    exact .inl ⟨_, by decide, rfl⟩

/-- The legal words are those that decode (30_encoding.md R75). -/
theorem legalWord_iff_decodes {w : BitVec 16} : LegalWord w ↔ ∃ i, decode (.command w) = .ok i := by
  constructor
  · rintro (⟨op, hop, rfl⟩ | ⟨imm, rfl | rfl⟩)
    · exact decodes_iff_encoding.2 (formatNWord_is_encoding hop)
    · exact ⟨_, decode_bitatWord imm⟩
    · exact ⟨_, decode_decodesWord imm⟩
  · rintro ⟨i, hd⟩
    exact legalWord_of_encoding (encode_of_decodeCommand hd)

/-- Executing an illegal word sets CERR and changes nothing else (30_encoding.md R77). -/
theorem step_illegalWord {s : State} {w : BitVec 16} {rest : List Input}
    (hin : s.inputs = .write .cmd (.word w.toNat) :: rest) (hw : ¬ LegalWord w) :
    step s = .next { s with inputs := rest, cerr := true } := by
  rw [step_word (p := .command w) hin]
  cases hd : decode (.command w) with
  | ok i => exact absurd (legalWord_iff_decodes.2 ⟨i, hd⟩) hw
  | error e => exact runWord_command_error hd _

/-- Settles O6. -/
theorem illegalCommandOnlySetsCerr : Obligations.IllegalCommandOnlySetsCerr :=
  ⟨fun _ => legalWord_iff_decodes, fun _ _ _ => step_illegalWord,
    fun _ hroom => ⟨exec_decode_not_full (.inl rfl) hroom, fun cap => exec_decode_not_full (.inr ⟨cap, rfl⟩) hroom⟩⟩

/-! ### Good runs -/

/-- The first step of a good run without a reset leaves CERR clear, since CERR is sticky (10_state.md R40). -/
theorem goodRun_first_step {n : Nat} {s u : State} (h : GoodRun (n + 1) s u)
    (hr : Input.reset ∉ s.inputs.take (n + 1)) : ∃ t, step s = .next t ∧ t.cerr = false := by
  obtain ⟨hrun, hcerr⟩ := h
  obtain ⟨t, hstep, hrest⟩ := run_succ_next hrun
  refine ⟨t, hstep, Bool.eq_false_iff.2 fun ht => ?_⟩
  have hr' : Input.reset ∉ t.inputs.take n := by
    rw [step_inputs hstep, ← List.drop_one, List.take_drop]
    exact fun hmem => hr (Nat.add_comm 1 n ▸ List.mem_of_mem_drop hmem)
  rw [cerrStaysUntilReset n t u hrest ht hr'] at hcerr
  cases hcerr

/-- A word with the opcode of DECODE or DECODES that decodes is one of the two (30_encoding.md R74). -/
theorem decodeCommand_of_decode {w : BitVec 16} {i : Instr}
    (hop : ∃ imm : BitVec 8, w = 0x13#8 ++ imm ∨ w = 0x14#8 ++ imm) (hd : decode (.command w) = .ok i) :
    DecodeCommand i := by
  obtain ⟨imm, rfl | rfl⟩ := hop
  · exact .inl (formatN_eq_ok ((decode_decodeWord imm).symm.trans hd)).2
  · exact .inr ⟨_, by simpa using hd.symm.trans (decode_decodesWord imm)⟩

/-- Settles O48: a word that is illegal, or decodes a buffer that is not full, would leave CERR set after its step. -/
theorem goodRunHasNoCommandFault : Obligations.GoodRunHasNoCommandFault := by
  intro n s u w rest hgood hr hin
  obtain ⟨t, hstep, hclear⟩ := goodRun_first_step hgood hr
  have no_fault : step s ≠ .next { s with inputs := rest, cerr := true } := by
    intro hfault
    cases hstep.symm.trans hfault
    cases hclear
  have hlegal : LegalWord w := by
    by_contra hw
    exact no_fault (step_illegalWord hin hw)
  refine ⟨hlegal, fun hop => ?_⟩
  obtain ⟨i, hd⟩ := legalWord_iff_decodes.1 hlegal
  by_contra hroom
  refine no_fault ?_
  rw [stepRunsDecodedInstr s (.command w) i rest hin hd]
  exact exec_decode_not_full (s := { s with inputs := rest }) (decodeCommand_of_decode hop hd) hroom

end Sys2Proof.Machine
end

section
/-! PROOFS. The encodings of the source (30_encoding.md R82, R84, R85): a frame of 255 bits, the canonical serial and the
record line. -/

namespace Sys2Proof.Machine

open Sys2Proof.Safety

/-! ### Frames -/

/-- Step 1 fails with one of its two codes (41_wiegand_decoder.md R123). -/
theorem leadingZeros_error {n : Nat} {bits : List Bool} {c : WCode} (h : leadingZeros n bits = .error c) :
    c = .leadingZeros ∨ c = .prematureEnd := by
  fun_induction leadingZeros n bits with
  | case1 => cases h
  | case2 => cases h; exact .inr rfl
  | case3 => cases h; exact .inl rfl
  | case4 n b bits _ ih => exact ih h

/-- The loop of step 4 fails with one of its three codes (41_wiegand_decoder.md R128). -/
theorem groupLoop_error {bits : List Bool} {acc : BitVec 32} {c : WCode} (h : groupLoop bits acc = .error c) :
    c = .parityFailure ∨ c = .padFailure ∨ c = .prematureEnd := by
  fun_induction groupLoop bits acc with
  | case1 => cases h; exact .inl rfl
  | case2 => cases h
  | case3 => cases h; exact .inr (.inl rfl)
  | case4 acc d0 d1 d2 d3 p rest g _ _ _ ih => exact ih h
  | case5 => cases h; exact .inr (.inr rfl)

/-- The loop of step 4 ends well only after DATA groups and END (41_wiegand_decoder.md R128 to R130). -/
theorem groupLoop_eq_ok {bits rest : List Bool} {acc acc' : BitVec 32} (h : groupLoop bits acc = .ok (acc', rest)) :
    ∃ gs : List BitGroup, (∀ g ∈ gs, IsData g) ∧ bits = gs.flatMap groupBits ++ groupBits endGroup ++ rest := by
  fun_induction groupLoop bits acc with
  | case1 | case3 | case5 => cases h
  | case2 acc d0 d1 d2 d3 p rest g hodd hend =>
    cases h
    have hg : g = endGroup := (isEnd_iff (by simpa using hodd)).1 hend
    exact ⟨[], by simp, hg ▸ rfl⟩
  | case4 acc d0 d1 d2 d3 p tail g hodd hend hpad ih =>
    obtain ⟨gs, hdata, rfl⟩ := ih h
    have hg : IsData g := ⟨by simpa using hodd, by simpa using hpad⟩
    exact ⟨g :: gs, List.forall_mem_cons.2 ⟨hg, hdata⟩, rfl⟩

/-- A decode that succeeds has read 25 zeros, START, DATA groups and END, and finishes on what follows
(41_wiegand_decoder.md R123 to R130). -/
theorem frameHead_of_success {bits : List Bool} (h : (decodeFrame bits).code = .success) :
    ∃ gs rest, (∀ g ∈ gs, IsData g) ∧ bits = frameHead gs ++ groupBits endGroup ++ rest := by
  unfold decodeFrame at h
  split at h
  · next c hlead =>
    obtain rfl | rfl := leadingZeros_error hlead <;> cases h
  next tail hlead =>
  unfold decodeGroups at h
  split at h
  · cases h
  next g tail' hread =>
  split at h
  · cases h
  next hodd =>
  split at h
  · cases h
  next hstart =>
  split at h
  · next c hloop =>
    obtain rfl | rfl | rfl := groupLoop_error hloop <;> cases h
  next acc rest hloop =>
  obtain ⟨gs, hdata, rfl⟩ := groupLoop_eq_ok hloop
  obtain rfl : g = startGroup := (isStart_iff (by simpa using hodd)).1 (by simpa using hstart)
  refine ⟨gs, rest, hdata, ?_⟩
  rw [leadingZeros_ok hlead, readGroup_eq_some hread]
  simp [frameHead]

/-- After END a decode succeeds exactly on an LRC group of odd parity and zeros (41_wiegand_decoder.md R132, R133). -/
theorem finishFrame_success_iff {acc : BitVec 32} {bits : List Bool} :
    (finishFrame acc bits).code = .success ↔
      ∃ lrc rest, lrc.odd = true ∧ true ∉ rest ∧ bits = groupBits lrc ++ rest := by
  constructor
  · intro h
    unfold finishFrame at h
    split at h
    · cases h
    next lrc rest hread =>
    split at h
    · cases h
    next hodd =>
    split at h
    · cases h
    next hzero =>
    exact ⟨lrc, rest, by simpa using hodd, by simpa using hzero, readGroup_eq_some hread⟩
  · rintro ⟨lrc, rest, hodd, hzero, rfl⟩
    have hzero : rest.any id = false := by simpa using hzero
    simp [finishFrame, hodd, hzero, extractPair, DecodeResult.code]

theorem length_groupBits (g : BitGroup) : (groupBits g).length = 5 := rfl

/-- 25 zeros, START and the DATA groups, five bits each (30_encoding.md R85). -/
theorem length_frameHead (gs : List BitGroup) : (frameHead gs).length = 30 + 5 * gs.length := by
  simp [frameHead, List.length_flatMap, length_groupBits]
  omega

/-- The frames of any length: a decode succeeds exactly on them (30_encoding.md R85). -/
theorem decodeFrame_success_iff {bits : List Bool} : (decodeFrame bits).code = .success ↔
    ∃ gs lrc rest, (∀ g ∈ gs, IsData g) ∧ lrc.odd = true ∧ true ∉ rest ∧
      bits = frameHead gs ++ groupBits endGroup ++ groupBits lrc ++ rest := by
  constructor
  · intro h
    obtain ⟨gs, tail, hdata, rfl⟩ := frameHead_of_success h
    rw [decodeFrame_end hdata, finishFrame_success_iff] at h
    obtain ⟨lrc, rest, hodd, hzero, rfl⟩ := h
    exact ⟨gs, lrc, rest, hdata, hodd, hzero, by simp⟩
  · rintro ⟨gs, lrc, rest, hdata, hodd, hzero, rfl⟩
    rw [List.append_assoc, decodeFrame_end hdata]
    exact finishFrame_success_iff.2 ⟨lrc, rest, hodd, hzero, rfl⟩

/-- Settles O17: at 255 bits the zeros after LRC are what the DATA groups leave of 215. -/
theorem decodeSucceedsExactlyOnFrames : Obligations.DecodeSucceedsExactlyOnFrames := by
  intro bits hlen
  rw [decodeFrame_success_iff]
  constructor
  · rintro ⟨gs, lrc, rest, hdata, hodd, hzero, rfl⟩
    have hrest : 5 * gs.length + rest.length = 215 := by
      simp only [List.length_append, length_frameHead, length_groupBits] at hlen
      omega
    have hzeros : rest = List.replicate (215 - 5 * gs.length) false :=
      List.eq_replicate_iff.2 ⟨by omega, fun b hb => Bool.eq_false_iff.2 fun ht => hzero (ht ▸ hb)⟩
    exact ⟨gs, lrc, by omega, hdata, hodd, by rw [← hzeros]⟩
  · rintro ⟨gs, lrc, -, hdata, hodd, hlayout⟩
    exact ⟨gs, lrc, _, hdata, hodd, by simp, hlayout⟩

/-! ### The canonical serial -/

/-- A digit's character is `'0'` plus the digit (30_encoding.md R84). -/
theorem digitChar_eq (n : Nat) : digitChar n = BitVec.ofNat 8 (0x30 + n % 10) :=
  (BitVec.ofNat_add 0x30 (n % 10)).symm

/-- The character tells the digit (30_encoding.md R84). -/
theorem digitChar_inj {m n : Nat} : digitChar m = digitChar n ↔ m % 10 = n % 10 := by
  rw [digitChar_eq, digitChar_eq]
  exact ⟨fun h => by bv_omega, fun h => by rw [h]⟩

/-- Three and five digits suffice, so the serial gives both numbers back (30_encoding.md R84). -/
theorem formatSerial_injective {f f' : BitVec 8} {c c' : BitVec 16} (h : formatSerial f c = formatSerial f' c') :
    f = f' ∧ c = c' := by
  simp only [formatSerial, List.cons.injEq, digitChar_inj] at h
  exact ⟨by bv_omega, by bv_omega⟩

/-- Settles O26: the digits are the quotients by powers of ten, modulo ten. -/
theorem serialSpellsThePair : Obligations.SerialSpellsThePair := by
  intro f c
  refine ⟨⟨f.toNat / 100 % 10, f.toNat / 10 % 10, f.toNat % 10, c.toNat / 10000 % 10, c.toNat / 1000 % 10,
    c.toNat / 100 % 10, c.toNat / 10 % 10, c.toNat % 10, ?small, ?facility, ?card, ?spelled⟩,
    fun _ _ => formatSerial_injective⟩
  case small => omega
  case facility => have := f.isLt; omega
  case card => have := c.isLt; omega
  case spelled => simp only [formatSerial, digitChar_eq]

/-! ### The record line -/

/-- A body with a serial before its first comma and a flag after it is a record (42_cardstore.md R161 to R163). -/
theorem parseBody_record {left more : Bytes} {flag : Byte} (hne : left ≠ []) (hcomma : Config.comma ∉ left) :
    parseBody (left ++ Config.comma :: flag :: more) = .record (trim left) (flag == Config.digit1) := by
  obtain ⟨b, bs, rfl⟩ := List.exists_cons_of_ne_nil hne
  rw [parseBody, splitComma_append hcomma]

/-- A line of twelve bytes that ends in a newline is parsed from the eleven before it (42_cardstore.md R162). -/
theorem parseLine_of_body {body : Bytes} (hlen : body.length = 11) :
    parseLine (body ++ [Config.newline]) = parseBody body := by
  rw [parseLine, if_neg (by simp), if_neg (by simp [hlen]), if_neg (by simp [← hlen]), ← hlen, List.take_left]

/-- Settles O27: the record's line is serial, comma and flag before its newline, and trimming leaves the serial alone. -/
theorem canonicalRecordParsesBack : Obligations.CanonicalRecordParsesBack := by
  intro serial enabled h
  simp only [canonicalSerial, Bool.and_eq_true, decide_eq_true_eq, Bool.not_eq_true', List.contains_eq_mem,
    decide_eq_false_iff_not, bne_iff_ne] at h
  obtain ⟨⟨⟨⟨hlen, hcomma⟩, -⟩, hhead⟩, hlast⟩ := h
  have hne : serial ≠ [] := by rintro rfl; cases hlen
  have hline : recordBytes serial enabled =
      (serial ++ [Config.comma, if enabled then Config.digit1 else Config.digit0]) ++ [Config.newline] := by
    simp [recordBytes]
  rw [hline, parseLine_of_body (by simp [hlen]), parseBody_record hne hcomma, trim_eq_self hhead hlast]
  cases enabled <;> rfl

end Sys2Proof.Machine
end

section
/-! PROOFS. BitCapture (40_bitcapture.md): what APPEND, CLEAR, ISFULL and BITAT do to the capture, what a run of edges
leaves in it, and that stored bits stay until a CLEAR or a reset (R106). -/

namespace Sys2Proof.Machine

open Sys2Proof.Safety

/-! ### APPEND -/

/-- Below capacity the bit is stored at position `len` (40_bitcapture.md R100). -/
theorem appendBit_room {s : State} (hroom : s.len ≠ 255#8) (bit : Bool) :
    appendBit bit s = { setCell s s.len.toNat bit with len := s.len + 1#8 }.driveAppOk true :=
  if_neg (mt full_iff.1 hroom)

theorem toNat_len_add_one {s : State} (hroom : s.len ≠ 255#8) : (s.len + 1#8).toNat = s.len.toNat + 1 := by bv_omega

/-- An append below capacity writes the cell at `len` and no other (40_bitcapture.md R100). -/
theorem cellAt_appendBit {s : State} (hroom : s.len ≠ 255#8) (bit : Bool) (j : Nat) :
    cellAt (appendBit bit s) j = if j = s.len.toNat then bit else cellAt s j := by
  have hcap : s.len.toNat < 255 := by bv_omega
  have hcell : cellAt (appendBit bit s) j = cellAt (setCell s s.len.toNat bit) j := by
    rw [appendBit_room hroom]
    rfl
  rw [hcell, cellAt_setCell s _ bit j hcap]
  simp only [eq_comm]

/-- Settles O8: no command word decodes to APPEND; below capacity the appended bit is the inverted level. -/
theorem appendStoresInvertedLevel : Obligations.AppendStoresInvertedLevel := by
  refine ⟨fun level => ⟨by cases level <;> rfl, fun w h => nomatch decode_eq_append h⟩, fun s level => ⟨?_, ?_⟩⟩
  · intro hroom
    refine ⟨appendBit (!level) s, rfl, ?_, ?_, fun j _ => cellAt_appendBit hroom _ j⟩
    · rw [appendBit_room hroom]
      rfl
    · rw [appendBit_room hroom]
      exact toNat_len_add_one hroom
  · intro hfull
    rw [exec, execAppend, appendBit_full hfull]
    rfl

/-! ### Edges in time order -/

/-- Serving an edge is the APPEND of its level (30_encoding.md R71). -/
theorem step_edge {s : State} {level : Bool} {rest : List Input} (hin : s.inputs = .event (edgeWord level) :: rest) :
    step s = exec (.append level) { s with inputs := rest } :=
  stepRunsDecodedInstr s (.event (edgeWord level)) _ rest hin (by cases level <;> rfl)

/-- A step on an edge below capacity stores the inverted level at `len` (40_bitcapture.md R100, R101). -/
theorem step_edge_room {s : State} {level : Bool} {rest : List Input}
    (hin : s.inputs = .event (edgeWord level) :: rest) (hroom : s.len ≠ 255#8) :
    ∃ t, step s = .next t ∧
      t = { s with buf := t.buf, len := t.len, inputs := rest, appOks := s.appOks ++ [true] } ∧
      t.len.toNat = s.len.toNat + 1 ∧
      ∀ j < 255, cellAt t j = if j = s.len.toNat then !level else cellAt s j := by
  obtain ⟨-, happend⟩ := appendStoresInvertedLevel
  obtain ⟨hstored, -⟩ := happend { s with inputs := rest } level
  rw [step_edge hin]
  exact hstored hroom

/-- Settles O12, by induction on the edges: the first is stored at `len`, the others from `len + 1` on. -/
theorem edgesFillBufferInTimeOrder : Obligations.EdgesFillBufferInTimeOrder := by
  intro levels
  induction levels with
  | nil =>
    rintro s rest rfl -
    refine ⟨s, rfl, by simp, rfl, fun j _ => ?_⟩
    rw [dif_neg (by simp)]
  | cons level levels ih =>
    intro s rest hin hfit
    rw [List.length_cons] at hfit
    rw [List.map_cons, List.cons_append] at hin
    have hroom : s.len ≠ 255#8 := by bv_omega
    obtain ⟨t, hstep, ht, hlen, hcells⟩ := step_edge_room hin hroom
    have hinputs : t.inputs = levels.map (fun d => .event (edgeWord d)) ++ rest := by rw [ht]
    obtain ⟨u, hrun, hu, hulen, hucells⟩ := ih t rest hinputs (by omega)
    refine ⟨u, (run_succ hstep).trans hrun, ?frame, ?length, fun j hj => ?cell⟩
    case frame =>
      rw [hu, ht]
      simp [List.replicate_succ]
    case length =>
      rw [List.length_cons]
      omega
    case cell =>
      simp only [hucells j hj, hcells j hj, hlen, List.length_cons]
      obtain hj | rfl | hj := Nat.lt_trichotomy j s.len.toNat
      · rw [dif_neg (by omega), dif_neg (by omega), if_neg (by omega)]
      · rw [dif_neg (by omega), dif_pos (by omega), if_pos rfl]
        simp
      · have hpos : j - s.len.toNat = j - (s.len.toNat + 1) + 1 := by omega
        rw [if_neg (by omega)]
        simp only [hpos, List.getElem_cons_succ]
        exact dite_congr (propext (by omega)) (fun _ => rfl) fun _ => rfl

/-! ### Stored bits -/

/-- The length becomes 0, or it stays or grows by one and every stored bit stays (40_bitcapture.md R106). -/
def ClearedOrKept (s t : State) : Prop :=
  t.len = 0#8 ∨ ((t.len.toNat = s.len.toNat ∨ t.len.toNat = s.len.toNat + 1) ∧
    ∀ j < s.len.toNat, cellAt t j = cellAt s j)

theorem clearedOrKept_of_same_capture {s t : State} (hbuf : t.buf = s.buf) (hlen : t.len = s.len) :
    ClearedOrKept s t :=
  .inr ⟨.inl (by rw [hlen]), fun j _ => by rw [cellAt, cellAt, hbuf]⟩

/-- Of the instructions only APPEND below capacity writes a cell, and that cell is not below `len`. -/
theorem exec_clearedOrKept {i : Instr} {s t : State} (h : exec i s = .next t) : ClearedOrKept s t := by
  cases exec_cases h
  case stored level hroom =>
    refine .inr ⟨.inr (toNat_len_add_one hroom), fun j hj => ?_⟩
    rw [← appendBit_room hroom, cellAt_appendBit hroom, if_neg hj.ne]
  case clear => exact .inl rfl
  all_goals exact clearedOrKept_of_same_capture rfl rfl

/-- Settles O15, by the cases of a step. -/
theorem storedBitsStayUntilCleared : Obligations.StoredBitsStayUntilCleared := by
  intro s t h
  cases step_cases h with
  | instr p rest i _ _ ht => exact exec_clearedOrKept (s := { s with inputs := rest }) ht
  | reset rest _ ht => exact .inl (by rw [ht, State.resetBlock_len])
  | load r v rest _ _ _ ht =>
    exact clearedOrKept_of_same_capture (by rw [ht, loadRegister_buf]) (by rw [ht, loadRegister_len])
  | idle _ ht | noCard _ _ _ ht | illegal _ _ _ _ ht | read _ _ _ _ _ ht | medium _ _ _ ht =>
    exact clearedOrKept_of_same_capture (by rw [ht]) (by rw [ht])

/-! ### CLEAR, ISFULL and BITAT -/

/-- Settles O9. -/
theorem clearOnlyResetsLength : Obligations.ClearOnlyResetsLength := ⟨rfl, fun _ => rfl⟩

theorem exec_isfull (s : State) : exec .isfull s = .next { s with bval := bitValue s.full } := rfl

/-- Settles O10, by whether the buffer is full. -/
theorem isfullAnswersCapacity : Obligations.IsfullAnswersCapacity := by
  refine ⟨rfl, fun s => ⟨fun hlen => ?_, fun hlen => ?_⟩⟩
  · have hfull : s.full = true := full_iff.2 (by bv_omega)
    rw [exec_isfull, hfull]
    rfl
  · have hroom : s.full = false := full_eq_false_iff.2 (by bv_omega)
    rw [exec_isfull, hroom]
    rfl

/-- The word of BITAT is its opcode over its operand byte (30_encoding.md R72, R74). -/
theorem encode_bitat {i : Nat} (hi : i < 256) : encode (.bitat i) = .command (0x1200#16 ||| BitVec.ofNat 16 i) := by
  have hword : commandWord 0x12#8 (BitVec.ofNat 8 i) = 0x1200#16 ||| (BitVec.ofNat 8 i).setWidth 16 := rfl
  rw [encode, hword, BitVec.setWidth_ofNat_of_le_of_lt (by decide) hi]

/-- Settles O11, by whether the position is below `len`. -/
theorem bitatAnswersStoredBit : Obligations.BitatAnswersStoredBit := by
  refine ⟨fun i hi => encode_bitat hi, fun s i => ⟨fun hlt => ?_, fun hge => ?_⟩⟩
  · rw [exec, execBitat, bitAt, if_pos hlt]
    rfl
  · rw [exec, execBitat, bitAt, if_neg (Nat.not_lt.2 hge)]

end Sys2Proof.Machine
end

section
/-! PROOFS. The decoder (41_wiegand_decoder.md): the payload that the accumulator holds, the outcome of a decode from its
first cause, and the commands DECODE, DECODES and FORMAT. -/

namespace Sys2Proof.Machine

open Sys2Proof.Safety

/-! ### The payload -/

/-- A bit is shifted in below the others, modulo the width (41_wiegand_decoder.md R131). -/
theorem shiftIn_ofNat (n : Nat) (d : Bool) : shiftIn (BitVec.ofNat 32 n) d = BitVec.ofNat 32 (2 * n + d.toNat) := by
  have hdisjoint : (BitVec.ofNat 32 n <<< 1) &&& (BitVec.ofBool d).setWidth 32 = 0#32 := by
    ext i hi
    cases i <;> simp
  rw [shiftIn, ← BitVec.add_eq_or_of_and_eq_zero _ _ hdisjoint]
  apply BitVec.eq_of_toNat_eq
  simp [Nat.shiftLeft_eq, Nat.mul_comm]

/-- A DATA group appends its octal digit (41_wiegand_decoder.md R131; 90_conflicts.md C2). -/
theorem accumulate_ofNat (n : Nat) (g : BitGroup) :
    accumulate (BitVec.ofNat 32 n) g = BitVec.ofNat 32 (8 * n + groupDigit g) := by
  rw [accumulate, shiftIn_ofNat, shiftIn_ofNat, shiftIn_ofNat, groupDigit]
  congr 1
  omega

/-- The accumulator holds the payload modulo its width (41_wiegand_decoder.md R131, R136). -/
theorem foldl_accumulate (gs : List BitGroup) : gs.foldl accumulate 0#32 = BitVec.ofNat 32 (payload gs) :=
  List.foldl_hom (BitVec.ofNat 32) accumulate_ofNat

/-- The pair stands in the low 25 bits, above the placeholder bit (41_wiegand_decoder.md R135). -/
theorem extractPair_ofNat (n : Nat) :
    extractPair (BitVec.ofNat 32 n) = .pair (BitVec.ofNat 8 (n / 2 ^ 17)) (BitVec.ofNat 16 (n / 2)) := by
  have hfac (x : BitVec 32) : (x &&& 0xFF#32).setWidth 8 = x.setWidth 8 := by
    rw [BitVec.setWidth_and]
    exact BitVec.and_allOnes
  have hcard (x : BitVec 32) : (x &&& 0xFFFF#32).setWidth 16 = x.setWidth 16 := by
    rw [BitVec.setWidth_and]
    exact BitVec.and_allOnes
  rw [extractPair, DecodeResult.pair.injEq, hfac, hcard]
  constructor
  · bv_omega
  · bv_omega

/-! ### The outcome by the first cause -/

section Causes

/-- A 1 among the leading bits ends the decode (41_wiegand_decoder.md R123). -/
theorem decodeFrame_leadingOne {bits : List Bool} {i : Nat} (hi : i < 25) (h : bits[i]? = some true) :
    decodeFrame bits = .failure .leadingZeros := by
  rw [decodeFrame, leadingZeros_one hi h]

/-- Zeros too few for step 1 run out (41_wiegand_decoder.md R123). -/
theorem decodeFrame_fewZeros {n : Nat} (hn : n < 25) :
    decodeFrame (List.replicate n false) = .failure .prematureEnd := by
  rw [decodeFrame, leadingZeros_short hn]

/-- The bits run out inside the first group (41_wiegand_decoder.md R125). -/
theorem decodeGroups_short {tail : List Bool} (h : tail.length < 5) : decodeGroups tail = .failure .prematureEnd := by
  rw [decodeGroups, readGroup_short h]

/-- Parity is tested before the START pattern (41_wiegand_decoder.md R126). -/
theorem decodeGroups_even {g : BitGroup} (heven : g.odd = false) (rest : List Bool) :
    decodeGroups (groupBits g ++ rest) = .failure .parityFailure := by
  simp [decodeGroups, heven]

/-- The first group is START or the decode ends (41_wiegand_decoder.md R127). -/
theorem decodeGroups_notStart {g : BitGroup} (hodd : g.odd = true) (hne : g ≠ startGroup) (rest : List Bool) :
    decodeGroups (groupBits g ++ rest) = .failure .invalidStart := by
  have hstart : g.isStart = false := Bool.eq_false_iff.2 fun h => hne ((isStart_iff hodd).1 h)
  simp [decodeGroups, hodd, hstart]

/-- The bits run out inside the LRC group (41_wiegand_decoder.md R125, R132). -/
theorem finishFrame_short {tail : List Bool} (h : tail.length < 5) (acc : BitVec 32) :
    finishFrame acc tail = .failure .prematureEnd := by
  rw [finishFrame, readGroup_short h]

/-- The LRC group has a parity code of its own (41_wiegand_decoder.md R132). -/
theorem finishFrame_even {lrc : BitGroup} (heven : lrc.odd = false) (acc : BitVec 32) (rest : List Bool) :
    finishFrame acc (groupBits lrc ++ rest) = .failure .lrcParityFailure := by
  simp [finishFrame, heven]

/-- A 1 after the LRC group (41_wiegand_decoder.md R133). -/
theorem finishFrame_trailingOne {lrc : BitGroup} (hodd : lrc.odd = true) {rest : List Bool} (hone : true ∈ rest)
    (acc : BitVec 32) : finishFrame acc (groupBits lrc ++ rest) = .failure .trailingZeros := by
  have hany : rest.any id = true := by simpa using hone
  simp [finishFrame, hodd, hany]

/-- Nothing but zeros after the LRC group (41_wiegand_decoder.md R133 to R135). -/
theorem finishFrame_zeros {lrc : BitGroup} (hodd : lrc.odd = true) {rest : List Bool} (hzero : true ∉ rest)
    (acc : BitVec 32) : finishFrame acc (groupBits lrc ++ rest) = extractPair acc := by
  have hany : rest.any id = false := by simpa using hzero
  simp [finishFrame, hodd, hany]

variable {gs : List BitGroup} (hdata : ∀ g ∈ gs, IsData g)
include hdata

/-- The bits run out before END (41_wiegand_decoder.md R125, R134). -/
theorem decodeFrame_short {tail : List Bool} (h : tail.length < 5) :
    decodeFrame (frameHead gs ++ tail) = .failure .prematureEnd := by
  rw [decodeFrame_head hdata, groupLoop_eq, readGroup_short h]

/-- Parity is tested before END and the pad bit (41_wiegand_decoder.md R126, R128). -/
theorem decodeFrame_even {g : BitGroup} (heven : g.odd = false) (rest : List Bool) :
    decodeFrame (frameHead gs ++ groupBits g ++ rest) = .failure .parityFailure := by
  rw [List.append_assoc, decodeFrame_head hdata, groupLoop_eq, readGroup_groupBits]
  simp [heven]

/-- A group with pad bit 1 is END or the decode ends (41_wiegand_decoder.md R129, R130). -/
theorem decodeFrame_pad {g : BitGroup} (hodd : g.odd = true) (hpad : g.d3 = true) (hne : g ≠ endGroup)
    (rest : List Bool) : decodeFrame (frameHead gs ++ groupBits g ++ rest) = .failure .padFailure := by
  have hend : g.isEnd = false := Bool.eq_false_iff.2 fun h => hne ((isEnd_iff hodd).1 h)
  rw [List.append_assoc, decodeFrame_head hdata, groupLoop_eq, readGroup_groupBits]
  simp [hodd, hend, hpad]

/-- A sequence without a cause of failure gives the pair of its payload (41_wiegand_decoder.md R131, R135, R136). -/
theorem decodeFrame_pair {lrc : BitGroup} (hodd : lrc.odd = true) {rest : List Bool} (hzero : true ∉ rest) :
    decodeFrame (frameHead gs ++ groupBits endGroup ++ groupBits lrc ++ rest) =
      .pair (BitVec.ofNat 8 (payload gs / 2 ^ 17)) (BitVec.ofNat 16 (payload gs / 2)) := by
  rw [List.append_assoc, decodeFrame_end hdata, finishFrame_zeros hodd hzero, foldl_accumulate, extractPair_ofNat]

end Causes

/-- Settles O18: what follows LRC in a frame is zeros. -/
theorem decodedPairIsThePayload : Obligations.DecodedPairIsThePayload := by
  rintro bits gs lrc ⟨-, hdata, hodd, rfl⟩
  exact decodeFrame_pair hdata hodd (by simp)

/-- Settles O19: bits without a 1 are zeros. -/
theorem leadingOneDecidesDecode : Obligations.LeadingOneDecidesDecode := by
  refine fun bits => ⟨fun i hi h => decodeFrame_leadingOne hi h, fun hlen hzero => ?_⟩
  have hbits : bits = List.replicate bits.length false :=
    List.eq_replicate_iff.2 ⟨rfl, fun b hb => Bool.eq_false_iff.2 fun ht => hzero (ht ▸ hb)⟩
  rw [hbits]
  exact decodeFrame_fewZeros hlen

/-- Settles O20, a clause per cause: in step 1, in the first group, in a later group, in LRC and after it. -/
theorem decodeFailuresByFirstCause : Obligations.DecodeFailuresByFirstCause := by
  refine ⟨fun bits i => decodeFrame_leadingOne, fun n => decodeFrame_fewZeros, fun tail h => ?shortStart,
    fun g rest => ⟨fun heven => ?evenStart, fun hodd hne => ?notStart⟩,
    fun gs hdata => ⟨fun tail => decodeFrame_short hdata,
      fun g rest => ⟨fun heven => decodeFrame_even hdata heven rest,
        fun hodd hpad hne => decodeFrame_pad hdata hodd hpad hne rest⟩,
      fun tail h => ?shortLrc,
      fun lrc rest => ⟨fun heven => ?evenLrc, fun hodd hone => ?trailing, fun hodd hzero => ?pair⟩⟩⟩
  case shortStart => rw [decodeFrame_zeros, decodeGroups_short h]
  case evenStart => rw [List.append_assoc, decodeFrame_zeros, decodeGroups_even heven]
  case notStart => rw [List.append_assoc, decodeFrame_zeros, decodeGroups_notStart hodd hne]
  case shortLrc => rw [decodeFrame_end hdata, finishFrame_short h]
  case evenLrc => rw [List.append_assoc, decodeFrame_end hdata, finishFrame_even heven]
  case trailing => rw [List.append_assoc, decodeFrame_end hdata, finishFrame_trailingOne hodd hone]
  case pair => exact decodeFrame_pair hdata hodd hzero

/-! ### A flipped parity bit -/

/-- A group with its parity bit flipped (95_test_vectors.md SP2). -/
def BitGroup.flipParity (g : BitGroup) : BitGroup := { g with p := !g.p }

/-- One flipped bit changes the parity of a group (41_wiegand_decoder.md R122). -/
theorem odd_flipParity (g : BitGroup) : g.flipParity.odd = !g.odd := by
  simp only [BitGroup.flipParity, BitGroup.odd]
  generalize g.d0.toNat + g.d1.toNat + g.d2.toNat + g.d3.toNat = n
  rw [Bool.eq_iff_iff]
  cases g.p <;> simp <;> omega

/-- The parity bit is the fifth bit of its group (30_encoding.md R85). -/
theorem modify_parityBit (pre rest : List Bool) (g : BitGroup) :
    (pre ++ groupBits g ++ rest).modify (pre.length + 4) not = pre ++ groupBits g.flipParity ++ rest := by
  rw [List.append_assoc, List.append_assoc]
  exact List.modifyTailIdx_add (List.modifyHead not) 4 pre (groupBits g ++ rest)

/-- END follows the DATA groups as one more group (30_encoding.md R85). -/
theorem frameHead_append (gs hs : List BitGroup) : frameHead (gs ++ hs) = frameHead gs ++ hs.flatMap groupBits := by
  simp [frameHead]

/-- The sequence up to END, seen from its `j`-th group after START: DATA groups stand before it, and it is odd. -/
theorem frame_split_at_group {gs : List BitGroup} (hdata : ∀ g ∈ gs, IsData g) {j : Nat} (hj : j ≤ gs.length) :
    ∃ (before : List BitGroup) (g : BitGroup) (rest : List Bool), before.length = j ∧ (∀ g' ∈ before, IsData g') ∧
      g.odd = true ∧ frameHead gs ++ groupBits endGroup = frameHead before ++ groupBits g ++ rest := by
  have hlt : j < (gs ++ [endGroup]).length := by simpa [Nat.lt_succ_iff] using hj
  refine ⟨gs.take j, (gs ++ [endGroup])[j], ((gs ++ [endGroup]).drop (j + 1)).flatMap groupBits, by simpa using hj,
    fun g' hg' => hdata g' (List.mem_of_mem_take hg'), ?odd, ?split⟩
  case odd =>
    obtain hmem | hend := List.mem_append.1 (List.getElem_mem hlt)
    · exact (hdata _ hmem).1
    · rw [List.mem_singleton.1 hend]
      rfl
  case split =>
    calc frameHead gs ++ groupBits endGroup
      _ = frameHead (gs ++ [endGroup]) := by simp [frameHead_append]
      _ = frameHead ((gs ++ [endGroup]).take j ++ (gs ++ [endGroup])[j] :: (gs ++ [endGroup]).drop (j + 1)) := by
          rw [List.getElem_cons_drop, List.take_append_drop]
      _ = _ := by rw [frameHead_append, List.take_append_of_le_length hj, List.flatMap_cons, List.append_assoc]

/-- Settles O21: the groups before the flipped bit are those of the frame, and its own group is even. -/
theorem flippedParityBitIsReported : Obligations.FlippedParityBitIsReported := by
  rintro bits gs lrc ⟨-, hdata, hodd, rfl⟩
  generalize List.replicate (215 - 5 * gs.length) false = tail
  constructor
  · intro j hj
    cases j with
    | zero =>
      have hstart : frameHead gs ++ groupBits endGroup ++ groupBits lrc ++ tail = List.replicate 25 false ++
          groupBits startGroup ++ (gs.flatMap groupBits ++ groupBits endGroup ++ groupBits lrc ++ tail) := by
        simp [frameHead]
      have hpos : 29 + 5 * 0 = (List.replicate 25 false).length + 4 := by rw [List.length_replicate]
      rw [hstart, hpos, modify_parityBit, List.append_assoc, decodeFrame_zeros,
        decodeGroups_even (by rw [odd_flipParity]; rfl)]
    | succ j =>
      obtain ⟨before, g, rest, rfl, hbefore, hg, hsplit⟩ := frame_split_at_group hdata (j := j) (by omega)
      have hpos : 29 + 5 * (before.length + 1) = (frameHead before).length + 4 := by
        rw [length_frameHead]
        omega
      rw [hsplit, List.append_assoc _ rest, List.append_assoc _ (rest ++ _), hpos, modify_parityBit,
        decodeFrame_even hbefore (by rw [odd_flipParity, hg]; rfl)]
  · have hpos : 39 + 5 * gs.length = (frameHead gs ++ groupBits endGroup).length + 4 := by
      rw [List.length_append, length_frameHead, length_groupBits]
      omega
    rw [hpos, modify_parityBit, List.append_assoc, decodeFrame_end hdata,
      finishFrame_even (by rw [odd_flipParity, hodd]; rfl)]

/-! ### The failure codes of a decode -/

/-- After END a decode fails for the bits, for LRC or for what follows it (41_wiegand_decoder.md R132, R133). -/
theorem finishFrame_failure {acc : BitVec 32} {bits : List Bool} {c : WCode} (h : finishFrame acc bits = .failure c) :
    c = .prematureEnd ∨ c = .lrcParityFailure ∨ c = .trailingZeros := by
  unfold finishFrame at h
  split at h
  · cases h; exact .inl rfl
  split at h
  · cases h; exact .inr (.inl rfl)
  split at h
  · cases h; exact .inr (.inr rfl)
  · cases h

/-- Steps 3 to 5 fail with a code of the decode (41_wiegand_decoder.md R120, R125 to R134). -/
theorem decodeGroups_failure {bits : List Bool} {c : WCode} (h : decodeGroups bits = .failure c) :
    c ≠ .success ∧ c ≠ .bufferTooSmall := by
  unfold decodeGroups at h
  split at h
  · cases h; decide
  split at h
  · cases h; decide
  split at h
  · cases h; decide
  split at h
  · next hloop =>
    cases h
    obtain rfl | rfl | rfl := groupLoop_error hloop <;> decide
  · obtain rfl | rfl | rfl := finishFrame_failure h <;> decide

/-- Settles O22, by the steps of the decode. -/
theorem decodeFailsWithDecodeCodes : Obligations.DecodeFailsWithDecodeCodes := by
  intro bits c h
  unfold decodeFrame at h
  split at h
  · next hlead =>
    cases h
    obtain rfl | rfl := leadingZeros_error hlead <;> decide
  · exact decodeGroups_failure h

/-! ### The commands -/

/-- DECODE on a full buffer (41_wiegand_decoder.md R141). -/
theorem exec_decode_full {s : State} (hfull : s.len = 255#8) :
    exec .decode s = .next (storeDecode (decodeFrame s.buf.toList) s) := by
  rw [exec, execDecode, if_pos (full_iff.2 hfull), capture]

/-- DECODES on a full buffer tests the capacity first (41_wiegand_decoder.md R142). -/
theorem exec_decodes_small {s : State} (hfull : s.len = 255#8) {cap : Nat} (hcap : cap < 9) :
    exec (.decodes cap) s = .next (s.returnW .bufferTooSmall) := by
  rw [exec, execDecodes, if_pos (full_iff.2 hfull), if_pos hcap]

/-- DECODES on a full buffer with room for a serial (41_wiegand_decoder.md R142). -/
theorem exec_decodes_full {s : State} (hfull : s.len = 255#8) {cap : Nat} (hcap : 9 ≤ cap) :
    exec (.decodes cap) s = .next (storeDecodeSerial (decodeFrame s.buf.toList) s) := by
  rw [exec, execDecodes, if_pos (full_iff.2 hfull), if_neg (Nat.not_lt.2 hcap), capture]

/-- Settles O23, by the buffer being full or not and the result of the decode. -/
theorem decodeWritesItsResult : Obligations.DecodeWritesItsResult := by
  refine ⟨rfl, fun s => ⟨fun hfull => ?_, exec_decode_not_full (.inl rfl)⟩⟩
  rw [exec_decode_full hfull]
  refine ⟨fun f c hr => by rw [hr]; rfl, fun c hr => by rw [hr]; rfl, _, rfl, ?_⟩
  cases hr : decodeFrame s.buf.toList with
  | pair f c => simp [storeDecode]
  | failure c => exact (decodeFailsWithDecodeCodes _ c hr).2

/-- A command word with an operand byte (30_encoding.md R72, R73). -/
theorem commandWord_operand (op : BitVec 8) {n : Nat} (hn : n < 256) :
    commandWord op (BitVec.ofNat 8 n) = commandWord op 0#8 ||| BitVec.ofNat 16 n := by
  have hfields (imm : BitVec 8) : commandWord op imm = commandWord op 0#8 ||| imm.setWidth 16 := by
    refine BitVec.eq_of_getLsbD_eq fun i hi => ?_
    simp only [commandWord, BitVec.getLsbD_or, BitVec.getLsbD_append, BitVec.getLsbD_setWidth, hi]
    by_cases hlow : i < 8
    · simp [hlow]
    · simp [hlow, BitVec.getLsbD_of_ge imm i (Nat.le_of_not_lt hlow)]
  rw [hfields, BitVec.setWidth_ofNat_of_le_of_lt (by decide) hn]

/-- Settles O24: a capacity of 9 or more takes no further part. -/
theorem decodesWritesSerial : Obligations.DecodesWritesSerial := by
  refine ⟨fun cap hcap => ?word, fun s cap => ⟨fun hfull hcap => exec_decodes_small hfull hcap, fun hfull hcap => ?_,
    exec_decode_not_full (.inr ⟨cap, rfl⟩)⟩⟩
  case word => exact congrArg PortWord.command (commandWord_operand 0x14#8 hcap)
  rw [exec_decodes_full hfull hcap]
  exact ⟨fun f c hr => by rw [hr]; rfl, fun c hr => by rw [hr]; rfl⟩

/-- Settles O25: the arm of FORMAT has no branch. -/
theorem formatWritesSerialOnly : Obligations.FormatWritesSerialOnly :=
  ⟨rfl, fun _ => ⟨rfl, length_formatSerial _ _⟩⟩

/-! ### A swiped card -/

/-- LOOKUP at the first slot that holds SER (42_cardstore.md R167). -/
theorem exec_lookup_found {s : State} {k : Nat} {enabled : Bool} (hm : s.medium = .ok)
    (hbelow : NoMatchBelow s.store s.ser k) (hp : parseAt s.store (12 * k) = .record s.ser enabled) :
    exec .lookup s = .next { s with sstat := .success, slot := BitVec.ofNat 16 k, en := enabled } := by
  rw [exec, execLookup, if_neg (not_not_intro (openStore_ok.2 hm)), scan_found_iff.2 ⟨hbelow, hp⟩]
  rfl

/-- Settles O54: DECODES leaves the store and the medium, and SER is the serial that the scan looks for. -/
theorem swipedCardIsFoundInStore : Obligations.SwipedCardIsFoundInStore := by
  intro s gs lrc cap k enabled f c hfull hframe hcap hm hf hc hbelow hp
  have hdecode : exec (.decodes cap) s =
      .next { s with wstat := .success, fac := f, card := c, ser := formatSerial f c } := by
    rw [exec_decodes_full hfull hcap, decodedPairIsThePayload _ gs lrc hframe, ← hf, ← hc]
    rfl
  exact ⟨_, _, hdecode, exec_lookup_found hm hbelow hp, rfl⟩

end Sys2Proof.Machine
end

section
/-! PROOFS. Reading and writing one record of the store (42_cardstore.md R160 to R163, R174): how the bytes at an offset
are classified, what a written record reads as, and that a write leaves the slots beside it alone. -/

namespace Sys2Proof.Machine

open Sys2Proof.Safety

/-! ### The classification of a line -/

theorem readBytes_append (mem : Memory) (off m n : Nat) :
    mem.readBytes off (m + n) = mem.readBytes off m ++ mem.readBytes (off + m) n := by
  induction m generalizing off with
  | zero => simp [Memory.readBytes]
  | succ m ih =>
    rw [Nat.add_right_comm, Memory.readBytes, ih, Memory.readBytes, List.cons_append, Nat.add_right_comm off 1 m,
      Nat.add_assoc off m 1]

/-- The line at a whole slot is cut from its twelve bytes (42_cardstore.md R160). -/
theorem readLine_slot {st : Store} {off : Nat} (hin : off + 12 ≤ st.size) :
    readLine st off = cutLine (st.mem.readBytes off 12) := by
  rw [readLine_inside (by omega), Config.recordLen, min_eq_left (by omega)]

/-- A line that is there and has fewer than twelve bytes is too short (42_cardstore.md R162). -/
theorem parseAt_short {st : Store} {off : Nat} (hin : off < st.size) (hlen : (readLine st off).length < 12) :
    parseAt st off = .failure .recordTooShort := by
  have hpos : (readLine st off).length ≠ 0 := by simpa using readLine_ne_nil hin
  rw [parseAt, parseLine, if_neg hpos, if_pos hlen]

/-- A newline before the last byte of a slot cuts the line short (42_cardstore.md R160, R162). -/
theorem parseAt_earlyNewline {st : Store} {off : Nat} (hin : off + 12 ≤ st.size)
    (hnl : 0x0A#8 ∈ (st.mem.readBytes off 12).take 11) : parseAt st off = .failure .recordTooShort := by
  refine parseAt_short (by omega) ?_
  rw [readLine_slot hin]
  simpa using cutLine_short (bs := st.mem.readBytes off 12) (by simpa [List.dropLast_eq_take] using hnl)

/-- Twelve bytes without a newline are too long (42_cardstore.md R162). -/
theorem parseAt_noNewline {st : Store} {off : Nat} (hin : off + 12 ≤ st.size)
    (hnl : 0x0A#8 ∉ st.mem.readBytes off 12) : parseAt st off = .failure .recordTooLong := by
  have hline : readLine st off = st.mem.readBytes off 12 := readLine_whole hin fun h => hnl (List.mem_of_mem_dropLast h)
  have hlast : (st.mem.readBytes off 12)[11]? ≠ some Config.newline := fun h => hnl (List.mem_of_getElem? h)
  rw [parseAt, hline, parseLine, if_neg (by simp), if_neg (by simp), if_pos hlast]

/-- Twelve bytes whose one newline is the last are parsed from the eleven before it (42_cardstore.md R161, R162). -/
theorem parseAt_body {st : Store} {off : Nat} {body : Bytes} (hin : off + 12 ≤ st.size)
    (hraw : st.mem.readBytes off 12 = body ++ [0x0A#8]) (hnl : 0x0A#8 ∉ body) : parseAt st off = parseBody body := by
  have hlen : body.length = 11 := by simpa using (congrArg List.length hraw).symm
  have hline : readLine st off = body ++ [0x0A#8] := by
    rw [← hraw]
    exact readLine_whole hin (by rw [Config.recordLen, hraw, List.dropLast_concat]; exact hnl)
  rw [parseAt, hline, parseLine_of_body hlen]

theorem trimLeft_spaces (n : Nat) (t : Bytes) : trimLeft (List.replicate n Config.space ++ t) = trimLeft t := by
  induction n with
  | zero => rfl
  | succ n ih => rw [List.replicate_succ, List.cons_append, trimLeft, if_pos rfl, ih]

/-- Trimming takes the outer spaces and nothing else (42_cardstore.md R161). -/
theorem trim_spaces {t : Bytes} (hhead : t.head? ≠ some Config.space) (hlast : t.getLast? ≠ some Config.space)
    (n m : Nat) : trim (List.replicate n Config.space ++ t ++ List.replicate m Config.space) = t := by
  rw [trim, List.append_assoc, trimLeft_spaces]
  cases t with
  | nil =>
    have hspaces := trimLeft_spaces m []
    rw [List.append_nil] at hspaces
    rw [List.nil_append, hspaces]
    rfl
  | cons b bs =>
    have hfront : trimLeft (b :: bs ++ List.replicate m Config.space) = b :: bs ++ List.replicate m Config.space :=
      trimLeft_eq_self hhead
    have hback : trimLeft (b :: bs).reverse = (b :: bs).reverse :=
      trimLeft_eq_self (by rwa [List.head?_reverse])
    rw [hfront, List.reverse_append, List.reverse_replicate, trimLeft_spaces, hback, List.reverse_reverse]

theorem parseBody_noComma {body : Bytes} (h : Config.comma ∉ body) : parseBody body = .failure .invalidRecord := by
  rw [parseBody, splitComma_eq_none.2 h]

theorem parseBody_commaFirst (right : Bytes) : parseBody (Config.comma :: right) = .failure .invalidRecord := by
  cases right <;> rfl

theorem parseBody_commaLast {left : Bytes} (h : Config.comma ∉ left) :
    parseBody (left ++ [Config.comma]) = .failure .invalidRecord := by
  rw [parseBody, splitComma_append h]

/-- Settles O28: by the bytes that are there, the first newline among them, and the first comma before it. -/
theorem bytesAtOffsetClassified : Obligations.BytesAtOffsetClassified := by
  intro st off
  refine ⟨parseAt_eq_eof.2, fun hin hend => parseAt_short hin ?cut, fun hin raw hraw => ?whole⟩
  case cut =>
    have := length_readLine_le st off
    simp only [Config.recordLen] at this
    omega
  subst hraw
  refine ⟨parseAt_earlyNewline hin, parseAt_noNewline hin, fun body hraw hnl => ?_⟩
  rw [parseAt_body hin hraw hnl]
  refine ⟨parseBody_noComma, fun right hbody => ?first, fun left hbody hcomma => ?last,
    fun n m serial flag more hbody hcomma hpos hhead hlast => ?record⟩
  case first => rw [hbody, parseBody_commaFirst]
  case last => rw [hbody, parseBody_commaLast hcomma]
  case record =>
    have hne : List.replicate n 0x20#8 ++ serial ++ List.replicate m 0x20#8 ≠ [] := by
      rw [← List.length_pos_iff]
      simpa [Nat.add_assoc] using hpos
    have hleft : Config.comma ∉ List.replicate n 0x20#8 ++ serial ++ List.replicate m 0x20#8 := by
      simpa using hcomma
    rw [hbody, parseBody_record hne hleft, trim_spaces hhead hlast]
    rfl

/-! ### One record -/

/-- A canonical serial has nine bytes and ends no line (42_cardstore.md R182, R188). -/
theorem length_and_newline_of_canonicalSerial {serial : Bytes} (h : canonicalSerial serial = true) :
    serial.length = 9 ∧ Config.newline ∉ serial := by
  simp only [canonicalSerial, Bool.and_eq_true, decide_eq_true_eq, Bool.not_eq_true', List.contains_eq_mem,
    decide_eq_false_iff_not] at h
  obtain ⟨⟨⟨⟨hlen, -⟩, hnl⟩, -⟩, -⟩ := h
  exact ⟨hlen, hnl⟩

theorem length_of_canonicalSerial {serial : Bytes} (h : canonicalSerial serial = true) : serial.length = 9 :=
  (length_and_newline_of_canonicalSerial h).1

theorem canonicalSerial_blankSerial : canonicalSerial blankSerial = true := by decide

/-- Twelve bytes that are the record of a canonical serial parse to it (42_cardstore.md R162, R163). -/
theorem parseAt_recordBytes {st : Store} {off : Nat} {serial : Bytes} {enabled : Bool}
    (hserial : canonicalSerial serial = true) (hin : off + 12 ≤ st.size)
    (hraw : st.mem.readBytes off 12 = recordBytes serial enabled) : parseAt st off = .record serial enabled := by
  have hnl : Config.newline ∉ (recordBytes serial enabled).dropLast := by
    obtain ⟨-, hnl⟩ := length_and_newline_of_canonicalSerial hserial
    cases enabled <;> simpa [recordBytes, List.dropLast_append] using hnl
  rw [parseAt, readLine_whole hin (hraw ▸ hnl), Config.recordLen, hraw]
  exact canonicalRecordParsesBack serial enabled hserial

section Write

variable {st : Store} {off : Nat} {serial : Bytes} {enabled : Bool} (hwf : st.mem.wf = true)
include hwf

/-- A written record is read back byte for byte (20_memory.md R57). -/
theorem readBytes_write_same (hlen : serial.length = 9) :
    (st.write off (encodeRecord serial enabled)).mem.readBytes off 12 = recordBytes serial enabled := by
  have hread := Memory.readBytes_writeBytes_same hwf off (encodeRecord serial enabled)
  rwa [length_encodeRecord, hlen] at hread

/-- The twelve bytes of a record are the only ones that its write changes (20_memory.md R57; 42_cardstore.md R188). -/
theorem wroteRecord_write (hlen : serial.length = 9) :
    WroteRecord st (st.write off (encodeRecord serial enabled)) off serial enabled where
  size_eq := by rw [store_write_size, length_encodeRecord, hlen]
  inside i hi := by
    rw [← readBytes_write_same hwf hlen, List.getElem?_eq_getElem (by simpa using hi), Memory.getElem_readBytes]
  outside a ha := by
    rw [store_write_mem, Memory.readByte_writeBytes hwf, length_encodeRecord, hlen, if_neg (by omega)]
  memWf := Memory.wf_writeBytes hwf _ _

/-- A written canonical record parses back (42_cardstore.md R162, R174). -/
theorem parseAt_write_same (hserial : canonicalSerial serial = true) :
    parseAt (st.write off (encodeRecord serial enabled)) off = .record serial enabled := by
  have hlen := length_of_canonicalSerial hserial
  refine parseAt_recordBytes hserial ?_ (readBytes_write_same hwf hlen)
  rw [store_write_size, length_encodeRecord, hlen]
  exact le_max_right _ _

/-- A record below a write stays as it was (42_cardstore.md R188). -/
theorem parseAt_write_below {bs : Bytes} {off' : Nat} (hbelow : off' + 12 ≤ off) (hin : off' + 12 ≤ st.size) :
    parseAt (st.write off bs) off' = parseAt st off' := by
  have hin' : off' + 12 ≤ (st.write off bs).size := hin.trans (le_max_left _ _)
  have hraw : (st.write off bs).mem.readBytes off' 12 = st.mem.readBytes off' 12 :=
    Memory.readBytes_writeBytes_disjoint hwf (.inl hbelow)
  rw [parseAt, parseAt, readLine_slot hin, readLine_slot hin', hraw]

end Write

end Sys2Proof.Machine
end

section
/-! PROOFS. LOOKUP, GET and ENUM (42_cardstore.md R164 to R170, R184): the medium, the slot that decides a scan, and the
records that an enumeration visits. -/

namespace Sys2Proof.Machine

open Sys2Proof.Safety

/-! ### The medium -/

/-- A store command that opens the store first answers the medium's code (42_cardstore.md R164). -/
theorem exec_mediumFailure {i : Instr} (hi : i = .lookup ∨ i = .get ∨ i = .insert ∨ i = .enum) (s : State) :
    (s.medium = .absent → exec i s = .next { s with sstat := .doesNotExist }) ∧
      (s.medium = .unopenable → exec i s = .next { s with sstat := .openFailure }) := by
  have hfail {c : SCode} (hm : openStore s.medium = c) (hc : c ≠ .success) :
      exec i s = .next { s with sstat := c } := by
    subst hm
    obtain rfl | rfl | rfl | rfl := hi <;> exact if_pos hc
  exact ⟨fun hm => hfail (by rw [hm]; rfl) (by simp), fun hm => hfail (by rw [hm]; rfl) (by simp)⟩

/-! ### The deciding slot -/

/-- Slot `k` decides the scan for `key`: the slots below it parse to other serials, and it does not
(42_cardstore.md R165). -/
def DecidingSlot (st : Store) (key : Bytes) (k : Nat) : Prop :=
  NoMatchBelow st key k ∧ ∀ serial enabled, parseAt st (12 * k) = .record serial enabled → serial = key

theorem decidingSlot_of_record {st : Store} {key : Bytes} {k : Nat} {enabled : Bool} (hbelow : NoMatchBelow st key k)
    (hp : parseAt st (12 * k) = .record key enabled) : DecidingSlot st key k :=
  ⟨hbelow, fun serial enabled' hp' => by rw [hp] at hp'; cases hp'; rfl⟩

theorem decidingSlot_of_failure {st : Store} {key : Bytes} {k : Nat} {c : SCode} (hbelow : NoMatchBelow st key k)
    (hp : parseAt st (12 * k) = .failure c) : DecidingSlot st key k :=
  ⟨hbelow, fun serial enabled hp' => by rw [hp] at hp'; cases hp'⟩

/-- Every scan is decided (42_cardstore.md R165, R166). -/
theorem exists_decidingSlot (st : Store) (key : Bytes) : ∃ k, DecidingSlot st key k := by
  cases hs : scan st key with
  | found serial k enabled =>
    obtain ⟨-, hp, hbelow⟩ := scan_found hs
    exact ⟨k, decidingSlot_of_record hbelow hp⟩
  | failure c =>
    obtain ⟨k, hbelow, ⟨hp, -⟩ | ⟨hp, -⟩⟩ := scan_failure hs
    · exact ⟨k, decidingSlot_of_failure hbelow hp⟩
    · exact ⟨k, decidingSlot_of_failure hbelow hp⟩

/-- No slot below a deciding one decides too. -/
theorem DecidingSlot.le {st : Store} {key : Bytes} {k k' : Nat} (h : DecidingSlot st key k)
    (h' : DecidingSlot st key k') : k' ≤ k := by
  by_contra hlt
  obtain ⟨serial, enabled, hp, hne⟩ := h'.1 k (by omega)
  exact hne (h.2 serial enabled hp)

theorem DecidingSlot.unique {st : Store} {key : Bytes} {k k' : Nat} (h : DecidingSlot st key k)
    (h' : DecidingSlot st key k') : k = k' :=
  le_antisymm (h'.le h) (h.le h')

/-- A malformed record met before a match is the answer of the scan (42_cardstore.md R165, R167). -/
theorem scan_malformed {st : Store} {key : Bytes} {k : Nat} {c : SCode} (hbelow : NoMatchBelow st key k)
    (hc : c ≠ .eof) (hp : parseAt st (12 * k) = .failure c) : scan st key = .failure c := by
  obtain hscan | ⟨serial, enabled, hp', -⟩ := scan_skip hbelow
  · rw [hscan, scanFrom_succ, hp]
    cases c with
    | eof => exact absurd rfl hc
    | _ => rfl
  · rw [hp] at hp'
    cases hp'

/-! ### LOOKUP and GET -/

/-- LOOKUP answers the code of a scan without a match, and changes nothing else (42_cardstore.md R167). -/
theorem exec_lookup_failure {s : State} {c : SCode} (hm : s.medium = .ok) (hs : scan s.store s.ser = .failure c) :
    exec .lookup s = .next { s with sstat := c } := by
  rw [exec, execLookup, if_neg (not_not_intro (openStore_ok.2 hm)), hs]
  rfl

/-- Settles O29: the deciding slot exists, and the scan answers what it holds. -/
theorem lookupAnswersFirstDecidingSlot : Obligations.LookupAnswersFirstDecidingSlot := by
  refine ⟨rfl, fun st key => ?decided, fun s => ?_⟩
  case decided =>
    obtain ⟨k, hbelow, hmatch⟩ := exists_decidingSlot st key
    refine ⟨k, hbelow, ?_⟩
    cases hp : parseAt st (12 * k) with
    | record serial enabled =>
      obtain rfl := hmatch serial enabled hp
      exact .inl ⟨enabled, rfl⟩
    | failure c => exact .inr ⟨c, rfl⟩
  obtain ⟨habsent, hunopenable⟩ := exec_mediumFailure (i := .lookup) (by simp) s
  refine ⟨habsent, hunopenable, fun hm k hbelow => ⟨fun enabled hp => exec_lookup_found hm hbelow hp, fun hp => ?eof,
    fun c hc hp => ?malformed⟩⟩
  case eof => exact exec_lookup_failure hm (scan_notFound_iff.2 ⟨k, hbelow, hp⟩)
  case malformed => exact exec_lookup_failure hm (scan_malformed hbelow hc hp)

/-- GET of a slot that parses loads its record into SER and EN (42_cardstore.md R170). -/
theorem exec_get_record {s : State} {serial : Bytes} {enabled : Bool} (hm : s.medium = .ok)
    (hin : 12 * s.slot.toNat < s.store.size) (hp : parseAt s.store (12 * s.slot.toNat) = .record serial enabled) :
    exec .get s = .next { s with sstat := .success, ser := serial, en := enabled } := by
  rw [exec, execGet, if_neg (not_not_intro (openStore_ok.2 hm)), slotOffset, if_neg (Nat.not_le.2 hin), hp]
  rfl

/-- Settles O30: by the offset being inside the store and the parse there. -/
theorem getReadsTheSlot : Obligations.GetReadsTheSlot := by
  refine ⟨rfl, fun s => ?_⟩
  obtain ⟨habsent, hunopenable⟩ := exec_mediumFailure (i := .get) (by simp) s
  refine ⟨habsent, hunopenable, fun hm => ⟨fun hout => ?eof, fun hin =>
    ⟨fun serial enabled hp => exec_get_record hm hin hp, fun c hp => ?malformed⟩⟩⟩
  case eof =>
    rw [exec, execGet, if_neg (not_not_intro (openStore_ok.2 hm)), slotOffset, if_pos hout]
    rfl
  case malformed =>
    rw [exec, execGet, if_neg (not_not_intro (openStore_ok.2 hm)), slotOffset, if_neg (Nat.not_le.2 hin), hp]
    rfl

/-! ### ENUM -/

/-- The slots `k`, `k + 1`, ... parse to the records `rs`, in order (`ParsesTo` is the case of slot 0). -/
def ParsesFrom (st : Store) (k : Nat) (rs : List (Bytes × Bool)) : Prop :=
  ∀ (j : Nat) (r : Bytes × Bool), rs[j]? = some r → parseAt st (12 * (k + j)) = .record r.1 r.2

theorem parsesFrom_zero {st : Store} {rs : List (Bytes × Bool)} : ParsesFrom st 0 rs ↔ ParsesTo st rs := by
  simp [ParsesFrom, ParsesTo]

theorem parsesFrom_cons {st : Store} {k : Nat} {r : Bytes × Bool} {rs : List (Bytes × Bool)} :
    ParsesFrom st k (r :: rs) ↔ parseAt st (12 * k) = .record r.1 r.2 ∧ ParsesFrom st (k + 1) rs := by
  constructor
  · intro h
    refine ⟨h 0 r rfl, fun j q hq => ?_⟩
    rw [Nat.add_right_comm]
    exact h (j + 1) q hq
  · rintro ⟨hr, hrs⟩ j q hq
    cases j with
    | zero =>
      cases hq
      exact hr
    | succ j =>
      rw [Nat.add_comm j 1, ← Nat.add_assoc]
      exact hrs j q hq

/-- The records from a slot on end with a slot that is none (42_cardstore.md R165, R184). -/
theorem exists_parsesFrom (st : Store) {n k : Nat} (hn : st.size < 12 * (k + n)) :
    ∃ rs c, ParsesFrom st k rs ∧ parseAt st (12 * (k + rs.length)) = .failure c := by
  induction n generalizing k with
  | zero => exact ⟨[], .eof, by simp [ParsesFrom], parseAt_eq_eof.2 (by simpa using hn.le)⟩
  | succ n ih =>
    cases hp : parseAt st (12 * k) with
    | failure c => exact ⟨[], c, by simp [ParsesFrom], hp⟩
    | record serial enabled =>
      obtain ⟨rs, c, hrs, hc⟩ := ih (k := k + 1) (by omega)
      refine ⟨(serial, enabled) :: rs, c, parsesFrom_cons.2 ⟨hp, hrs⟩, ?_⟩
      rwa [List.length_cons, Nat.add_comm rs.length 1, ← Nat.add_assoc]

/-- ENUM's loop visits the records from its slot on, with enough passes to meet the slot after them
(42_cardstore.md R184). -/
theorem enumFrom_of_parsesFrom {st : Store} {n k : Nat} {rs : List (Bytes × Bool)} {c : SCode}
    (hrs : ParsesFrom st k rs) (hc : parseAt st (12 * (k + rs.length)) = .failure c) (hn : rs.length < n) :
    enumFrom st n k = (rs.mapIdx fun j r => ⟨r.1, k + j, r.2⟩, if c = .eof then .success else c) := by
  induction rs generalizing n k with
  | nil =>
    obtain ⟨m, rfl⟩ := Nat.exists_eq_add_one.2 hn
    rw [enumFrom, Config.recordLen, show parseAt st (12 * k) = .failure c from hc]
    cases c <;> rfl
  | cons r rs ih =>
    obtain ⟨m, rfl⟩ := Nat.exists_eq_add_one_of_ne_zero (Nat.ne_zero_of_lt hn)
    obtain ⟨hr, hrs⟩ := parsesFrom_cons.1 hrs
    rw [List.length_cons] at hc hn
    have hrest := ih hrs (by rwa [Nat.add_assoc, Nat.add_comm 1]) (by omega : rs.length < m)
    rw [enumFrom, Config.recordLen, hr, hrest, List.mapIdx_cons]
    simp only [Nat.add_zero, Nat.add_assoc, Nat.add_comm 1]

/-- The records of a store lie below its size (42_cardstore.md R163). -/
theorem length_le_of_parsesTo {st : Store} {rs : List (Bytes × Bool)} (h : ParsesTo st rs) :
    12 * rs.length ≤ st.size := by
  cases rs with
  | nil => exact Nat.zero_le _
  | cons r rs => exact (parseAt_record (h rs.length _ (List.getElem?_eq_getElem (by simp)))).1

/-- Settles O33: the loop of ENUM has a pass for every record and one for the slot after them. -/
theorem enumVisitsEveryParsedRecord : Obligations.EnumVisitsEveryParsedRecord := by
  refine ⟨rfl, fun st => ?ends, fun s => ?_⟩
  case ends =>
    obtain ⟨rs, c, hrs, hc⟩ := exists_parsesFrom st (k := 0) (by simpa using size_lt_scanPasses st)
    exact ⟨rs, c, parsesFrom_zero.1 hrs, by simpa using hc⟩
  obtain ⟨habsent, hunopenable⟩ := exec_mediumFailure (i := .enum) (by simp) s
  refine ⟨habsent, hunopenable, fun hm rs hrs c hc => ?_⟩
  have hpasses : rs.length < scanPasses s.store := by
    have := length_le_of_parsesTo hrs
    simp only [scanPasses, Config.recordLen]
    omega
  rw [exec, execEnum, if_neg (not_not_intro (openStore_ok.2 hm)),
    enumFrom_of_parsesFrom (parsesFrom_zero.2 hrs) (by simpa using hc) hpasses]
  simp only [Nat.zero_add]
  rfl

end Sys2Proof.Machine
end

section
/-! PROOFS. PUT, DELETE and INSERT (42_cardstore.md R174 to R188): the tests before the write, the slot that is written,
and reading the written record back. -/

namespace Sys2Proof.Machine

open Sys2Proof.Safety

/-! ### PUT and DELETE -/

/-- The serial's length is tested before anything else (42_cardstore.md R174). -/
theorem putBySlot_badLength {serial : Bytes} (hlen : serial.length ≠ 9) (m : Medium) (mx : Nat) (st : Store)
    (slot : BitVec 16) (enabled : Bool) : putBySlot m mx st slot serial enabled = .failure .invalidRecord :=
  if_pos hlen

/-- The medium is tested before the range (42_cardstore.md R174). -/
theorem putBySlot_mediumFailure {serial : Bytes} (hlen : serial.length = 9) {m : Medium} {c : SCode}
    (hm : openStore m = c) (hc : c ≠ .success) (mx : Nat) (st : Store) (slot : BitVec 16) (enabled : Bool) :
    putBySlot m mx st slot serial enabled = .failure c := by
  subst hm
  rw [putBySlot, if_neg (not_not_intro hlen), if_pos hc]

/-- A slot past the end is EOF (42_cardstore.md R174, R176). -/
theorem putBySlot_pastEnd {serial : Bytes} (hlen : serial.length = 9) {st : Store} {slot : BitVec 16}
    (hout : st.size < putOffset st slot) (mx : Nat) (enabled : Bool) :
    putBySlot .ok mx st slot serial enabled = .failure .eof := by
  rw [putBySlot, if_neg (not_not_intro hlen), if_neg (not_not_intro (openStore_ok.2 rfl)), if_pos hout]

theorem putOffset_of_ne_append {slot : BitVec 16} (h : slot ≠ 0xFFFF#16) (st : Store) :
    putOffset st slot = 12 * slot.toNat :=
  if_neg h

theorem putRegisters_failure {s : State} {c : SCode}
    (h : putBySlot s.medium s.storeMax.val s.store s.slot s.ser s.en = .failure c) :
    putRegisters s = .next { s with sstat := c } := by
  rw [putRegisters, h]
  rfl

/-- The write of PUT's tail in range and with room (42_cardstore.md R174). -/
theorem putRegisters_writes {s : State} {off : Nat} (hm : s.medium = .ok) (hlen : s.ser.length = 9)
    (hoff : putOffset s.store s.slot = off) (hin : off ≤ s.store.size) (hroom : off + 12 ≤ s.storeMax.val) :
    putRegisters s =
      .next { s with store := s.store.write off (encodeRecord s.ser s.en), sstat := .success } := by
  subst hoff
  rw [putRegisters, hm, putBySlot_writes hlen hin hroom]
  simp only [State.setStore, State.returnS, hm]

/-- Every outcome of PUT's tail for a serial of nine bytes: the medium, the range and the room, in this order, and then
the write of one record (42_cardstore.md R174 to R176; 20_memory.md R57). -/
theorem putRegisters_outcomes {s : State} (hlen : s.ser.length = 9) :
    (s.medium = .absent → putRegisters s = .next { s with sstat := .doesNotExist }) ∧
    (s.medium = .unopenable → putRegisters s = .next { s with sstat := .openFailure }) ∧
    (s.medium = .ok →
      (s.slot ≠ 0xFFFF#16 → s.store.size < 12 * s.slot.toNat → putRegisters s = .next { s with sstat := .eof }) ∧
      (∀ off, off = putOffset s.store s.slot → off ≤ s.store.size →
        (s.storeMax.val < off + 12 → putRegisters s = .refused .storeFull) ∧
        (off + 12 ≤ s.storeMax.val → s.store.mem.wf = true →
          ∃ t, putRegisters s = .next t ∧ t = { s with store := t.store, sstat := .success } ∧
            WroteRecord s.store t.store off s.ser s.en))) := by
  refine ⟨fun hm => ?absent, fun hm => ?unopenable, fun hm => ⟨fun hslot hout => ?eof, fun off hoff hin =>
    ⟨fun hfull => ?full, fun hroom hwf => ?written⟩⟩⟩
  case absent => exact putRegisters_failure (putBySlot_mediumFailure hlen (by rw [hm]; rfl) (by simp) _ _ _ _)
  case unopenable => exact putRegisters_failure (putBySlot_mediumFailure hlen (by rw [hm]; rfl) (by simp) _ _ _ _)
  case eof =>
    rw [← putOffset_of_ne_append hslot s.store] at hout
    exact putRegisters_failure (by rw [hm]; exact putBySlot_pastEnd hlen hout _ _)
  case full => exact putRegisters_refused_iff.2 ⟨rfl, hm, hlen, hoff ▸ hin, hoff ▸ hfull⟩
  case written => exact ⟨_, putRegisters_writes hm hlen hoff.symm hin hroom, rfl, wroteRecord_write hwf hlen⟩

/-- Settles O31: PUT is its tail on the registers as they are. -/
theorem putWritesOneRecord : Obligations.PutWritesOneRecord :=
  ⟨rfl, fun _ => ⟨fun hlen => putRegisters_failure (putBySlot_badLength hlen _ _ _ _ _),
    fun hlen => putRegisters_outcomes hlen⟩⟩

/-- Settles O34: DELETE is PUT's tail on the registers that hold the tombstone. -/
theorem deleteWritesTombstone : Obligations.DeleteWritesTombstone := by
  refine ⟨rfl, fun s blank hblank => ?_⟩
  subst hblank
  exact putRegisters_outcomes (s := s.setRecord blankSerial false) length_blankSerial

/-- Settles O36: the offset of the slot lies in the store after the write, and the twelve bytes there parse back. -/
theorem putRecordIsGotBack : Obligations.PutRecordIsGotBack := by
  intro s t hwf hserial hslot h hok
  obtain ⟨c, hc, rfl⟩ | ⟨st, hst, rfl⟩ := putRegisters_cases h
  · exact absurd hok hc
  · obtain ⟨-, hm, -, -, rfl⟩ := putBySlot_written hst
    have hparse := parseAt_write_same (off := putOffset s.store s.slot) (enabled := s.en) hwf hserial
    rw [putOffset_of_ne_append hslot] at hparse ⊢
    obtain ⟨hin, -⟩ := parseAt_record hparse
    exact exec_get_record hm (Nat.lt_of_lt_of_le (Nat.lt_add_of_pos_right (by decide)) hin) hparse

/-! ### INSERT -/

/-- A store whose slots all parse up to its end has twelve bytes for each (42_cardstore.md R163, R165). -/
theorem size_eq_of_noMatchBelow {st : Store} {key : Bytes} {n : Nat} (hbelow : NoMatchBelow st key n)
    (heof : parseAt st (12 * n) = .failure .eof) : st.size = 12 * n := by
  have hle := parseAt_eq_eof.1 heof
  cases n with
  | zero => exact Nat.le_zero.1 hle
  | succ n =>
    obtain ⟨serial, enabled, hp, -⟩ := hbelow n (Nat.lt_succ_self n)
    obtain ⟨hin, -⟩ := parseAt_record hp
    simp only [Config.recordLen] at hin
    omega

/-- STORE_MAX_BYTES is at most what 65535 slots take (00_scope.md R8). -/
theorem storeMax_le (s : State) : s.storeMax.val ≤ Config.storeLimit := Nat.le_of_lt_succ s.storeMax.isLt

/-- A slot number of a store that fits the medium is no append value (10_state.md R24; 00_scope.md R8). -/
theorem putOffset_ofNat {st : Store} {k : Nat} (h : 12 * k + 12 ≤ Config.storeLimit) :
    putOffset st (BitVec.ofNat 16 k) = 12 * k := by
  simp only [Config.storeLimit] at h
  have hk : (BitVec.ofNat 16 k).toNat = k := by rw [BitVec.toNat_ofNat]; omega
  have hne : BitVec.ofNat 16 k ≠ 0xFFFF#16 := fun heq => by
    have : (BitVec.ofNat 16 k).toNat = 65535 := by rw [heq]; rfl
    omega
  rw [putOffset_of_ne_append hne, hk]

/-- INSERT of a serial that is not stored writes at the slot that decides the scan for a blank record: the first blank
slot, or the end (42_cardstore.md R180, R181). -/
theorem exec_insert_new {s : State} {n k : Nat} (hm : s.medium = .ok) (hnew : NoMatchBelow s.store s.ser n)
    (heof : parseAt s.store (12 * n) = .failure .eof) (hk : DecidingSlot s.store blankSerial k) :
    ∃ target, exec .insert s = insertAt target k s ∧
      (s.store.size ≤ Config.storeLimit → putOffset s.store target = 12 * k) := by
  have hscan := scan_notFound_iff.2 ⟨n, hnew, heof⟩
  have hsize := size_eq_of_noMatchBelow hnew heof
  obtain ⟨hbelow, hmatch⟩ := hk
  cases hp : parseAt s.store (12 * k) with
  | record serial enabled =>
    obtain rfl := hmatch serial enabled hp
    refine ⟨BitVec.ofNat 16 k, ?_, fun hfits => putOffset_ofNat (le_trans (parseAt_record hp).1 hfits)⟩
    rw [exec, execInsert, if_neg (not_not_intro (openStore_ok.2 hm)), hscan, scan_found_iff.2 ⟨hbelow, hp⟩]
  | failure c =>
    -- Below slot `n` every slot parses, and from there on the data has ended.
    obtain rfl : k = n := le_antisymm (noMatchBelow_le_of_failure hbelow heof) (noMatchBelow_le_of_failure hnew hp)
    refine ⟨Config.slotAppend, ?_, fun _ => (if_pos rfl).trans hsize⟩
    rw [exec, execInsert, if_neg (not_not_intro (openStore_ok.2 hm)), hscan, scan_notFound_iff.2 ⟨k, hbelow, heof⟩,
      hsize, Nat.mul_div_cancel_left k (by decide)]

/-- INSERT that finds its serial stored, or a malformed record first, writes nothing (42_cardstore.md R180, D29). -/
theorem exec_insert_rejects {s : State} {n : Nat} (hm : s.medium = .ok) (hbelow : NoMatchBelow s.store s.ser n) :
    (∀ enabled, parseAt s.store (12 * n) = .record s.ser enabled →
      exec .insert s = .next { s with sstat := .alreadyExists }) ∧
    (∀ c, c ≠ .eof → parseAt s.store (12 * n) = .failure c → exec .insert s = .next { s with sstat := c }) := by
  refine ⟨fun enabled hp => ?stored, fun c hc hp => ?malformed⟩
  case stored =>
    rw [exec, execInsert, if_neg (not_not_intro (openStore_ok.2 hm)), scan_found_iff.2 ⟨hbelow, hp⟩]
    rfl
  case malformed =>
    rw [exec, execInsert, if_neg (not_not_intro (openStore_ok.2 hm)), scan_malformed hbelow hc hp]
    obtain rfl | rfl | rfl | rfl := parseAt_codes hp
    · exact absurd rfl hc
    · rfl
    · rfl
    · rfl

theorem insertAt_badLength {s : State} (hlen : s.ser.length ≠ 9) (target : BitVec 16) (k : Nat) :
    insertAt target k s = .next { s with sstat := .invalidRecord } := by
  rw [insertAt, putBySlot_badLength hlen]
  rfl

/-- The write of INSERT in range and with room (42_cardstore.md R180). -/
theorem insertAt_writes {s : State} {target : BitVec 16} {off : Nat} (hm : s.medium = .ok) (hlen : s.ser.length = 9)
    (hoff : putOffset s.store target = off) (hin : off ≤ s.store.size) (hroom : off + 12 ≤ s.storeMax.val) (k : Nat) :
    insertAt target k s = .next { s with
      store := s.store.write off (encodeRecord s.ser s.en), slot := BitVec.ofNat 16 k, sstat := .success } := by
  subst hoff
  rw [insertAt, hm, putBySlot_writes hlen hin hroom]
  simp only [State.setStore, State.returnS, hm]

/-- Settles O32: without a match INSERT writes at the slot that decides the scan for a blank record. -/
theorem insertReusesOrAppends : Obligations.InsertReusesOrAppends := by
  refine ⟨rfl, fun s => ?_⟩
  obtain ⟨habsent, hunopenable⟩ := exec_mediumFailure (i := .insert) (by simp) s
  refine ⟨habsent, hunopenable, fun hm n hnew => ?_⟩
  obtain ⟨hstored, hmalformed⟩ := exec_insert_rejects hm hnew
  refine ⟨hstored, hmalformed, fun heof => ⟨fun hlen => ?badLength, fun hlen hinv => ?_⟩⟩
  case badLength =>
    obtain ⟨k, hk⟩ := exists_decidingSlot s.store blankSerial
    obtain ⟨target, hexec, -⟩ := exec_insert_new hm hnew heof hk
    rw [hexec, insertAt_badLength hlen]
  have hfits : s.store.size ≤ Config.storeLimit := hinv.sizeFits.trans (storeMax_le s)
  have hsize := size_eq_of_noMatchBelow hnew heof
  refine ⟨fun k enabled hbelow hblank => ?reuse, fun hnone hroom => ?append, fun hnone hfull => ?full⟩
  case reuse =>
    obtain ⟨target, hexec, hoff⟩ := exec_insert_new hm hnew heof (decidingSlot_of_record hbelow hblank)
    obtain ⟨hin, -⟩ := parseAt_record hblank
    exact ⟨_, hexec.trans (insertAt_writes hm hlen (hoff hfits) (by omega) (hin.trans hinv.sizeFits) k), rfl,
      wroteRecord_write hinv.memWf hlen⟩
  case append =>
    obtain ⟨target, hexec, hoff⟩ := exec_insert_new hm hnew heof (decidingSlot_of_failure hnone heof)
    rw [hsize, Nat.mul_div_cancel_left n (by decide)]
    rw [hsize] at hroom
    exact ⟨_, hexec.trans (insertAt_writes hm hlen (hoff hfits) hsize.ge hroom n), rfl,
      wroteRecord_write hinv.memWf hlen⟩
  case full =>
    obtain ⟨target, hexec, hoff⟩ := exec_insert_new hm hnew heof (decidingSlot_of_failure hnone heof)
    have hend : putOffset s.store target = s.store.size := (hoff hfits).trans hsize.symm
    rw [hexec]
    exact insertAt_refused_iff.2 ⟨rfl, hm, hlen, hend.le, hend ▸ hfull⟩

/-- What an INSERT that succeeds has done: the serial was not stored, and its record went to the slot `k` that decides
the scan for a blank record, which is at most the number `n` of slots (42_cardstore.md R180). -/
theorem exec_insert_success {s t : State} (h : exec .insert s = .next t) (hok : t.sstat = .success)
    (hfits : s.store.size ≤ Config.storeLimit) :
    s.medium = .ok ∧ ∃ n k, NoMatchBelow s.store s.ser n ∧ s.store.size = 12 * n ∧
      DecidingSlot s.store blankSerial k ∧ k ≤ n ∧
      t = { s with store := s.store.write (12 * k) (encodeRecord s.ser s.en), slot := BitVec.ofNat 16 k,
                   sstat := .success } := by
  obtain ⟨c, hc, rfl⟩ | ⟨hm, hs, -⟩ := execInsert_cases h
  · exact absurd hok hc
  obtain ⟨n, hnew, heof⟩ := scan_notFound_iff.1 hs
  obtain ⟨k, hk⟩ := exists_decidingSlot s.store blankSerial
  refine ⟨hm, n, k, hnew, size_eq_of_noMatchBelow hnew heof, hk, noMatchBelow_le_of_failure hk.1 heof, ?_⟩
  obtain ⟨target, hexec, hoff⟩ := exec_insert_new hm hnew heof hk
  obtain ⟨c, hc, rfl⟩ | ⟨st, hst, rfl⟩ := insertAt_cases (hexec.symm.trans h)
  · exact absurd hok hc
  · obtain ⟨-, -, -, -, rfl⟩ := putBySlot_written hst
    rw [hoff hfits]
    rfl

/-- Settles O35: the records below the written slot are as they were, and none of them has the serial. -/
theorem insertedSerialIsLookedUp : Obligations.InsertedSerialIsLookedUp := by
  intro s t hinv hserial h hok
  have hfits : s.store.size ≤ Config.storeLimit := hinv.sizeFits.trans (storeMax_le s)
  obtain ⟨hm, n, k, hnew, -, -, hkn, rfl⟩ := exec_insert_success h hok hfits
  refine ⟨exec_lookup_found hm (fun j hj => ?below) (parseAt_write_same hinv.memWf hserial), rfl, rfl⟩
  case below =>
    obtain ⟨serial, enabled, hp, hne⟩ := hnew j (by omega)
    obtain ⟨hin, -⟩ := parseAt_record hp
    exact ⟨serial, enabled, (parseAt_write_below hinv.memWf (by omega) hin).trans hp, hne⟩

end Sys2Proof.Machine
end

section
/-! PROOFS. A store of whole records (42_cardstore.md R188; 10_state.md R24): it stays one, no record moves, and only a
PUT, INSERT or DELETE that succeeds writes it. -/

namespace Sys2Proof.Machine

open Sys2Proof.Safety

/-! ### The slots of a store of records -/

/-- A byte string is a concatenation of records exactly if each twelve bytes of it are one. -/
theorem readBytes_eq_records_iff {mem : Memory} {off : Nat} {rs : List (Bytes × Bool)}
    (hlen : ∀ r ∈ rs, r.1.length = 9) :
    mem.readBytes off (12 * rs.length) = rs.flatMap (fun r => recordBytes r.1 r.2) ↔
      ∀ j r, rs[j]? = some r → mem.readBytes (off + 12 * j) 12 = recordBytes r.1 r.2 := by
  induction rs generalizing off with
  | nil => simp [Memory.readBytes]
  | cons r rs ih =>
    obtain ⟨hr, hrs⟩ := List.forall_mem_cons.1 hlen
    have hrec : (recordBytes r.1 r.2).length = 12 := by simp [recordBytes, hr]
    rw [List.length_cons, Nat.mul_succ, Nat.add_comm, readBytes_append, List.flatMap_cons]
    constructor
    · intro h j q hq
      obtain ⟨hfirst, hrest⟩ := List.append_inj h (by simp [hrec])
      cases j with
      | zero =>
        cases hq
        exact hfirst
      | succ j =>
        rw [Nat.mul_succ, Nat.add_comm (12 * j), ← Nat.add_assoc]
        exact (ih hrs).1 hrest j q hq
    · intro h
      have hfirst : mem.readBytes off 12 = recordBytes r.1 r.2 := h 0 r rfl
      rw [hfirst, (ih hrs).2 fun j q hq => ?_]
      rw [Nat.add_assoc, Nat.add_comm 12, ← Nat.mul_succ]
      exact h (j + 1) q hq

/-- The records `rs` after a write of `r` at slot `k`: in the place of the record there, or at the end. -/
def putRecord (rs : List (Bytes × Bool)) (k : Nat) (r : Bytes × Bool) : List (Bytes × Bool) :=
  if k < rs.length then rs.set k r else rs ++ [r]

section PutRecord

variable {rs : List (Bytes × Bool)} {k : Nat} (hk : k ≤ rs.length) (r : Bytes × Bool)
include hk

theorem length_putRecord : (putRecord rs k r).length = max rs.length (k + 1) := by
  unfold putRecord
  split
  · rw [List.length_set]
    omega
  · rw [List.length_append, List.length_singleton]
    omega

theorem getElem?_putRecord (j : Nat) : (putRecord rs k r)[j]? = if k = j then some r else rs[j]? := by
  unfold putRecord
  split
  · next hlt => rw [List.getElem?_set, if_pos hlt]
  · next hlt =>
    obtain rfl : rs.length = k := by omega
    obtain hj | rfl | hj := lt_trichotomy j rs.length
    · rw [List.getElem?_append_left hj, if_neg hj.ne']
    · rw [List.getElem?_concat_length, if_pos rfl]
    · rw [if_neg hj.ne, List.getElem?_eq_none (by simpa using hj), List.getElem?_eq_none hj.le]

theorem mem_putRecord {q : Bytes × Bool} (hq : q ∈ putRecord rs k r) : q = r ∨ q ∈ rs := by
  obtain ⟨j, hj⟩ := List.mem_iff_getElem?.1 hq
  rw [getElem?_putRecord hk] at hj
  split at hj
  · cases hj
    exact .inl rfl
  · exact .inr (List.mem_of_getElem? hj)

end PutRecord

section Records

variable {st : Store} {rs : List (Bytes × Bool)} (hrs : HoldsRecords st rs)
include hrs

theorem length_of_holdsRecords : ∀ r ∈ rs, r.1.length = 9 :=
  fun r hr => length_of_canonicalSerial (hrs.canonical r hr)

theorem readBytes_of_holdsRecords {k : Nat} {r : Bytes × Bool} (hk : rs[k]? = some r) :
    st.mem.readBytes (12 * k) 12 = recordBytes r.1 r.2 := by
  have hbytes := hrs.bytes_eq
  rw [Store.bytes, hrs.size_eq, readBytes_eq_records_iff (length_of_holdsRecords hrs)] at hbytes
  simpa using hbytes k r hk

/-- A store of canonical records parses to them (42_cardstore.md R162, R188). -/
theorem parsesTo_of_holdsRecords : ParsesTo st rs := by
  intro k r hk
  obtain ⟨hlt, -⟩ := List.getElem?_eq_some_iff.1 hk
  have hsize := hrs.size_eq
  exact parseAt_recordBytes (hrs.canonical r (List.mem_of_getElem? hk)) (by omega) (readBytes_of_holdsRecords hrs hk)

theorem parseAt_end_of_holdsRecords : parseAt st (12 * rs.length) = .failure .eof :=
  parseAt_eq_eof.2 hrs.size_eq.le

/-- The scan of a store of records passes those with another serial (42_cardstore.md R165). -/
theorem noMatchBelow_of_holdsRecords {key : Bytes} {k : Nat} (hk : k ≤ rs.length)
    (hne : ∀ j (hj : j < k), rs[j].1 ≠ key) : NoMatchBelow st key k := fun j hj =>
  ⟨_, _, parsesTo_of_holdsRecords hrs j _ (List.getElem?_eq_getElem (by omega)), hne j hj⟩

/-- The scan of a store of records is decided by the first record with the serial, or at the end. -/
theorem decidingSlot_of_holdsRecords (key : Bytes) : DecidingSlot st key (rs.findIdx fun q => q.1 == key) := by
  refine ⟨noMatchBelow_of_holdsRecords hrs List.findIdx_le_length fun j hj => ?other, fun serial enabled hp => ?_⟩
  case other => simpa using List.not_of_lt_findIdx hj
  by_cases hlt : (rs.findIdx fun q => q.1 == key) < rs.length
  · rw [parsesTo_of_holdsRecords hrs _ _ (List.getElem?_eq_getElem hlt)] at hp
    cases hp
    simpa using List.findIdx_getElem (w := hlt)
  · rw [le_antisymm List.findIdx_le_length (Nat.le_of_not_lt hlt), parseAt_end_of_holdsRecords hrs] at hp
    cases hp

/-- A canonical record written at a slot, or at the end, leaves a store of records: that one replaced or added, and
every other in its place (42_cardstore.md R188). -/
theorem holdsRecords_write {k : Nat} (hk : k ≤ rs.length) {serial : Bytes} (hserial : canonicalSerial serial = true)
    (enabled : Bool) :
    HoldsRecords (st.write (12 * k) (encodeRecord serial enabled)) (putRecord rs k (serial, enabled)) := by
  have hlen := length_of_canonicalSerial hserial
  have hsize := hrs.size_eq
  have hwritten : (st.write (12 * k) (encodeRecord serial enabled)).size = 12 * max rs.length (k + 1) := by
    rw [store_write_size, length_encodeRecord, hlen, hsize]
    omega
  have hcanonical : ∀ q ∈ putRecord rs k (serial, enabled), canonicalSerial q.1 = true := fun q hq => by
    obtain rfl | hq := mem_putRecord hk _ hq
    · exact hserial
    · exact hrs.canonical q hq
  refine ⟨Memory.wf_writeBytes hrs.memWf _ _, Memory.below_writeBytes (Memory.below_mono hrs.memBelow (le_max_left _ _))
    (le_max_right _ _), hcanonical, by rw [hwritten, length_putRecord hk], ?_⟩
  rw [Store.bytes, hwritten, ← length_putRecord hk (serial, enabled),
    readBytes_eq_records_iff fun q hq => length_of_canonicalSerial (hcanonical q hq)]
  intro j q hq
  rw [Nat.zero_add]
  rw [getElem?_putRecord hk] at hq
  split at hq
  · next hkj =>
    cases hq
    rw [← hkj, readBytes_write_same hrs.memWf hlen]
  · rw [← readBytes_of_holdsRecords hrs hq]
    exact Memory.readBytes_writeBytes_disjoint hrs.memWf (by rw [length_encodeRecord, hlen]; omega)

end Records

/-! ### The commands that write -/

/-- PUT's tail on a store of records (42_cardstore.md R174, R187, R188). -/
theorem putRegisters_keeps_records {s t : State} {rs : List (Bytes × Bool)} {k : Nat} (hrs : HoldsRecords s.store rs)
    (hserial : canonicalSerial s.ser = true) (hoff : 12 * k = putOffset s.store s.slot)
    (h : putRegisters s = .next t) :
    (t.sstat ≠ .success ∧ t.store = s.store) ∨
      (t.sstat = .success ∧ k ≤ rs.length ∧ HoldsRecords t.store (putRecord rs k (s.ser, s.en))) := by
  obtain ⟨c, hc, rfl⟩ | ⟨st, hst, rfl⟩ := putRegisters_cases h
  · exact .inl ⟨hc, rfl⟩
  · obtain ⟨-, -, hin, -, rfl⟩ := putBySlot_written hst
    have hsize := hrs.size_eq
    have hk : k ≤ rs.length := by omega
    rw [← hoff]
    exact .inr ⟨rfl, hk, holdsRecords_write hrs hk hserial s.en⟩

/-- INSERT on a store of records: the first blank record is replaced, or the record added at the end
(42_cardstore.md R180, R188). -/
theorem exec_insert_keeps_records {s t : State} {rs : List (Bytes × Bool)} (hrs : HoldsRecords s.store rs)
    (hserial : canonicalSerial s.ser = true) (hfits : s.store.size ≤ s.storeMax.val) {k : Nat}
    (hk : k = rs.findIdx fun q => q.1 == blankSerial) (h : exec .insert s = .next t) :
    (t.sstat ≠ .success ∧ t.store = s.store) ∨
      (t.sstat = .success ∧ k ≤ rs.length ∧ t.slot.toNat = k ∧
        HoldsRecords t.store (putRecord rs k (s.ser, s.en))) := by
  have hlimit : s.store.size ≤ Config.storeLimit := hfits.trans (storeMax_le s)
  obtain ⟨c, hc, rfl⟩ | ⟨-, -, _, _, _, -, -, ht⟩ := execInsert_cases h
  · exact .inl ⟨hc, rfl⟩
  have hok : t.sstat = .success := by rw [ht]
  obtain ⟨-, -, k', -, -, hk', -, rfl⟩ := exec_insert_success h hok hlimit
  obtain rfl : k' = k := hk ▸ hk'.unique (decidingSlot_of_holdsRecords hrs blankSerial)
  have hle : k' ≤ rs.length := hk ▸ List.findIdx_le_length
  refine .inr ⟨rfl, hle, ?slot, holdsRecords_write hrs hle hserial s.en⟩
  case slot =>
    have hsize := hrs.size_eq
    simp only [Config.storeLimit] at hlimit
    rw [BitVec.toNat_ofNat]
    omega

/-- Settles O37: PUT and DELETE share their tail, and INSERT writes at the slot that decides the scan for a blank. -/
theorem recordsNeverShift : Obligations.RecordsNeverShift := by
  intro s t rs i r k hrs hi h
  obtain ⟨rfl, hserial, rfl, hfits, hk⟩ | ⟨⟨rfl, hserial, rfl⟩ | ⟨rfl, rfl⟩, hoff⟩ := hi
  · exact (exec_insert_keeps_records hrs hserial hfits hk h).imp_right
      fun ⟨hok, hle, hslot, hheld⟩ => ⟨hok, hle, fun _ => hslot, hheld⟩
  · exact (putRegisters_keeps_records hrs hserial hoff h).imp_right
      fun ⟨hok, hle, hheld⟩ => ⟨hok, hle, by simp, hheld⟩
  · exact (putRegisters_keeps_records (s := s.setRecord blankSerial false) hrs canonicalSerial_blankSerial hoff
      h).imp_right fun ⟨hok, hle, hheld⟩ => ⟨hok, hle, by simp, hheld⟩

/-- DELETE of a stored slot of a store that fits the medium succeeds (42_cardstore.md R187). -/
theorem exec_delete_stored {s : State} {rs : List (Bytes × Bool)} (hrs : HoldsRecords s.store rs)
    (hfits : s.store.size ≤ s.storeMax.val) (hm : s.medium = .ok) (hk : s.slot.toNat < rs.length) :
    exec .delete s = .next { s with
      store := s.store.write (12 * s.slot.toNat) (encodeRecord blankSerial false), ser := blankSerial, en := false,
      sstat := .success } := by
  have hsize := hrs.size_eq
  have hlimit := storeMax_le s
  simp only [Config.storeLimit] at hlimit
  have hslot : s.slot ≠ 0xFFFF#16 := by
    intro heq
    have : s.slot.toNat = 65535 := by rw [heq]; rfl
    omega
  have hin : 12 * s.slot.toNat ≤ s.store.size := by omega
  have hroom : 12 * s.slot.toNat + 12 ≤ s.storeMax.val := by omega
  exact putRegisters_writes (s := s.setRecord blankSerial false) hm length_blankSerial
    (putOffset_of_ne_append hslot _) hin hroom

/-- The first record with a serial is at or below a slot that was set to one. -/
theorem findIdx_set_le {rs : List (Bytes × Bool)} {j : Nat} {key : Bytes} {r : Bytes × Bool}
    (hr : r.1 = key) : ((rs.set j r).findIdx fun q => q.1 == key) ≤ j := by
  by_contra hlt
  have hother := List.not_of_lt_findIdx (Nat.lt_of_not_le hlt)
  rw [List.getElem_set_self] at hother
  simp [hr] at hother

/-- INSERT of a serial that is not stored overwrites the first blank record (42_cardstore.md R180, R181). -/
theorem exec_insert_reuses {s : State} {rs : List (Bytes × Bool)} (hrs : HoldsRecords s.store rs)
    (hfits : s.store.size ≤ s.storeMax.val) (hm : s.medium = .ok) (hlen : s.ser.length = 9)
    (hnew : ∀ r ∈ rs, r.1 ≠ s.ser) {k : Nat} (hk : k = rs.findIdx fun q => q.1 == blankSerial) (hlt : k < rs.length) :
    exec .insert s = .next { s with
      store := s.store.write (12 * k) (encodeRecord s.ser s.en), slot := BitVec.ofNat 16 k, sstat := .success } := by
  have hsize := hrs.size_eq
  have hpass : NoMatchBelow s.store s.ser rs.length :=
    noMatchBelow_of_holdsRecords hrs le_rfl fun j hj => hnew _ (List.getElem_mem hj)
  obtain ⟨target, hexec, hoff⟩ := exec_insert_new hm hpass (parseAt_end_of_holdsRecords hrs)
    (hk ▸ decidingSlot_of_holdsRecords hrs blankSerial)
  rw [hexec]
  exact insertAt_writes hm hlen (hoff (hfits.trans (storeMax_le s))) (by omega) (by omega) k

/-- Settles O38: after the DELETE the first blank record is at or below its slot, and INSERT writes there. -/
theorem deletedSlotIsReused : Obligations.DeletedSlotIsReused := by
  intro s t u rs blank hrs hfits hm hstored hdelete hblank hu hserial hne hnew
  subst hblank
  have hstore : u.store = t.store := by rw [hu]
  have hmax : u.storeMax = t.storeMax := by rw [hu]
  have hmedium : u.medium = t.medium := by rw [hu]
  rw [exec_delete_stored hrs hfits hm hstored] at hdelete
  cases hdelete
  have hsize : s.store.size = 12 * rs.length := hrs.size_eq
  -- The records after the DELETE, and the first blank one among them.
  have hheld : HoldsRecords u.store (rs.set s.slot.toNat (blankSerial, false)) := by
    have hwritten := holdsRecords_write hrs hstored.le canonicalSerial_blankSerial false
    rw [putRecord, if_pos hstored] at hwritten
    rw [hstore]
    exact hwritten
  have hsize' : u.store.size = s.store.size := by rw [hheld.size_eq, List.length_set, hsize]
  obtain ⟨k, hk⟩ : ∃ k, k = (rs.set s.slot.toNat (blankSerial, false)).findIdx fun q => q.1 == blankSerial := ⟨_, rfl⟩
  have hle : k ≤ s.slot.toNat := hk ▸ findIdx_set_le rfl
  have hnew' : ∀ r ∈ rs.set s.slot.toNat (blankSerial, false), r.1 ≠ u.ser := fun r hr => by
    obtain hr | rfl := List.mem_or_eq_of_mem_set hr
    · exact hnew r hr
    · exact hne.symm
  have hlen := length_of_canonicalSerial hserial
  have hinsert := exec_insert_reuses hheld (by rw [hsize', hmax]; exact hfits) (hmedium.trans hm) hlen hnew' hk
    (by rw [List.length_set]; omega)
  have hslot : (BitVec.ofNat 16 k).toNat = k := by rw [BitVec.toNat_ofNat]; omega
  refine ⟨_, hinsert, rfl, ?below, hslot.trans hk, ?size⟩
  case below =>
    rw [BitVec.le_def, hslot]
    exact hle
  case size =>
    rw [store_write_size, length_encodeRecord, hlen, hsize']
    omega

/-! ### Every step -/

/-- A host write of an operand register leaves the store (10_state.md R24, R30). -/
@[simp] theorem loadRegister_store (r : Reg) (v : PortValue) (s : State) : (loadRegister r v s).store = s.store := by
  unfold loadRegister
  split <;> rfl

/-- Settles O49: an instruction that writes the store is one of the three, and its word is its encoding. -/
theorem storeOnlyGrowsBySuccess : Obligations.StoreOnlyGrowsBySuccess := by
  intro s t h
  cases step_cases h with
  | instr p rest i hin hd ht =>
    have hword : p = encode i := (decodedWordIsItsEncoding p i hd).2.symm
    subst hword
    refine ⟨?grows, ?_⟩
    case grows =>
      obtain heq | ⟨off, serial, enabled, -, -, -, heq⟩ := exec_store ht
      · rw [heq]
      · rw [heq]
        exact le_max_left _ _
    cases exec_cases ht
    case put => exact fun _ => ⟨rfl, _, rest, hin, .inl rfl⟩
    case insert => exact fun _ => ⟨rfl, _, rest, hin, .inr (.inl rfl)⟩
    case delete => exact fun _ => ⟨rfl, _, rest, hin, .inr (.inr rfl)⟩
    all_goals exact fun hne => absurd rfl hne
  | load r v rest _ _ _ ht => simp [ht]
  | idle _ ht => simp [ht]
  | noCard ev rest _ ht => simp [ht]
  | illegal w rest _ _ ht => simp [ht]
  | read r v rest _ _ ht => simp [ht]
  | medium m rest _ ht => simp [ht]
  | reset rest _ ht => simp [ht]

end Sys2Proof.Machine
end

section
/-! PROOFS. Failing commands are precise (60_exceptions.md R208): what each command has written when its status register
does not say SUCCESS, and when it has set CERR. -/

namespace Sys2Proof.Machine

open Sys2Proof.Safety

/-- A command that sets CERR writes nothing else (30_encoding.md R77; 60_exceptions.md R203). -/
theorem exec_eq_of_sets_cerr {i : Instr} {s t : State} (h : exec i s = .next t) (hset : t.cerr ≠ s.cerr) :
    t = { s with cerr := true } := by
  cases exec_cases h
  case notFull => rfl
  all_goals exact absurd rfl hset

/-- No decode command is a store command. -/
theorem not_decodeCommand_of_precise {i : Instr} (hi : PreciseStoreCommand i) : ¬ DecodeCommand i := by
  obtain rfl | rfl | rfl | rfl | rfl := hi <;> simp [DecodeCommand]

/-- A decode of a full buffer that fails writes WSTAT alone (41_wiegand_decoder.md R141, R142). -/
theorem exec_decode_eq_of_failed {i : Instr} {s t : State} (hi : DecodeCommand i) (hfull : s.len = 255#8)
    (h : exec i s = .next t) (hfail : t.wstat ≠ .success) : t = { s with wstat := t.wstat } := by
  cases exec_cases h
  case decodeFailed => rfl
  case decoded => exact absurd rfl hfail
  case decodedSerial => exact absurd rfl hfail
  case notFull hroom _ => exact absurd hfull hroom
  case storeFailed hstore => exact absurd hi (not_decodeCommand_of_precise hstore)
  all_goals simp [DecodeCommand] at hi

/-- A store command other than DELETE that fails writes SSTAT, and the visits if it is ENUM
(60_exceptions.md R208). -/
theorem exec_store_eq_of_failed {i : Instr} {s t : State} (hi : PreciseStoreCommand i) (h : exec i s = .next t)
    (hfail : t.sstat ≠ .success) :
    t = { s with sstat := t.sstat, visits := t.visits } ∧ (i ≠ .enum → t.visits = s.visits) := by
  cases exec_cases h
  case storeFailed => exact ⟨rfl, fun _ => rfl⟩
  case enum => exact ⟨rfl, absurd rfl⟩
  case lookup => exact absurd rfl hfail
  case get => exact absurd rfl hfail
  case put => exact absurd rfl hfail
  case insert => exact absurd rfl hfail
  case notFull hdecode => exact absurd hdecode (not_decodeCommand_of_precise hi)
  case decodeFailed hdecode => exact absurd hdecode (not_decodeCommand_of_precise hi)
  all_goals simp [PreciseStoreCommand] at hi

/-- An ENUM that fails for the medium visits nothing (42_cardstore.md R164, R184). -/
theorem exec_enum_visits_of_medium {s t : State} (h : exec .enum s = .next t) (hm : s.medium ≠ .ok) :
    t.visits = s.visits := by
  obtain ⟨c, -, rfl⟩ | ⟨hok, -⟩ := execEnum_cases h
  · rfl
  · exact absurd hok hm

/-- An ENUM that fails on an open store stops at the first slot that is no record, with that slot's code, after the
visits of the records before it (42_cardstore.md R184). -/
theorem exec_enum_failed_slot {s t : State} (h : exec .enum s = .next t) (hfail : t.sstat ≠ .success)
    (hm : s.medium = .ok) :
    ∃ rs, ParsesTo s.store rs ∧ parseAt s.store (12 * rs.length) = .failure t.sstat ∧
      t.visits = s.visits ++ rs.mapIdx fun k r => ⟨r.1, k, r.2⟩ := by
  obtain ⟨-, hends, henum⟩ := enumVisitsEveryParsedRecord
  obtain ⟨rs, c, hrs, hc⟩ := hends s.store
  obtain ⟨-, -, hvisits⟩ := henum s
  rw [hvisits hm rs hrs c hc] at h
  cases h
  have hne : c ≠ .eof := fun heof => hfail (if_pos heof)
  exact ⟨rs, hrs, by rw [hc, if_neg hne], rfl⟩

/-- A DELETE that fails writes SSTAT and the operands of the tombstone (42_cardstore.md R187). -/
theorem exec_delete_eq_of_failed {s t : State} (h : exec .delete s = .next t) (hfail : t.sstat ≠ .success) :
    t = { s with sstat := t.sstat, ser := blankSerial, en := false } := by
  obtain ⟨c, -, rfl⟩ | ⟨st, -, rfl⟩ := putRegisters_cases (s := s.setRecord blankSerial false) h
  · rfl
  · exact absurd rfl hfail

/-- Settles O45: each clause is the failing branch of its commands. -/
theorem failingCommandsArePrecise : Obligations.FailingCommandsArePrecise := by
  intro s t
  refine ⟨fun i hi h hfail => ?store,
    fun h hfail => ⟨?enum, exec_enum_visits_of_medium h, exec_enum_failed_slot h hfail⟩,
    exec_delete_eq_of_failed, fun i hi hfull h hfail => exec_decode_eq_of_failed hi hfull h hfail,
    fun i h hset => exec_eq_of_sets_cerr h hset⟩
  case store =>
    have hprecise : PreciseStoreCommand i := by obtain rfl | rfl | rfl | rfl := hi <;> simp [PreciseStoreCommand]
    have hne : i ≠ .enum := by obtain rfl | rfl | rfl | rfl := hi <;> simp
    obtain ⟨heq, hvisits⟩ := exec_store_eq_of_failed hprecise h hfail
    rwa [hvisits hne] at heq
  case enum => exact (exec_store_eq_of_failed (by simp [PreciseStoreCommand]) h hfail).1

end Sys2Proof.Machine
end

section
/-! PROOFS. Reset, the idle block, and completeness: an instruction without a next state is a write that does not fit
the medium (70_reset_and_hazards.md R240 to R242, R255). -/

namespace Sys2Proof.Machine

/-! ### Completeness -/

/-- Only PUT, INSERT and DELETE have an offset to write at (42_cardstore.md R188). -/
theorem storing_of_writesAt {s : State} {i : Instr} {off : Nat} (h : WritesAt s i off) :
    i = .put ∨ i = .insert ∨ i = .delete := by
  cases h with
  | put => exact .inl rfl
  | insertEnd | insertBlank => exact .inr (.inl rfl)
  | delete => exact .inr (.inr rfl)

/-- An instruction whose write fits the medium, or that writes nothing, answers a next state: it is not refused, and the
block has no fault to stop with (60_exceptions.md R200; 20_memory.md R57). -/
theorem exec_next_of_not_overflows {i : Instr} {s : State} (hfits : ¬ Overflows s i) : ∃ t, exec i s = .next t := by
  cases h : exec i s with
  | next t => exact ⟨t, rfl⟩
  | fault r => cases r
  | refused r => exact absurd (exec_refused h).2 hfits

/-- Settles O46: a write lies at or below the end of the store, so with room for a record after that end it fits. -/
theorem instructionsCompleteWithRoom : Obligations.InstructionsCompleteWithRoom := by
  intro i s hroom
  apply exec_next_of_not_overflows
  rintro ⟨-, off, hw, hoff, hover⟩
  have hend : s.store.size + Config.recordLen ≤ s.storeMax.val := hroom (storing_of_writesAt hw)
  omega

/-! ### No input to come, and reset -/

/-- Settles O7. -/
theorem idleBlockKeepsState : Obligations.IdleBlockKeepsState := fun _ => step_idle

/-- Settles O42: the step is `State.resetBlock`, which writes out every value. -/
theorem resetInputClearsRegisters : Obligations.ResetInputClearsRegisters := by
  intro s rest hin
  refine ⟨State.resetBlock { s with inputs := rest }, step_serve hin, ?_⟩
  simp [State.full, WCode.number, SCode.number]

end Sys2Proof.Machine
end
